-- ==== Sys2Proof/Word.lean ====
section
/-! DEFINITION. The widths of 00_scope.md R7, R8 and R13 as bit-vector types. -/

namespace Sys2Proof

/-- An 8-bit value: a memory byte, a general register, an immediate NN, a timer or random value (R7). -/
abbrev Byte := BitVec 8

/-- A 16-bit value: an instruction word, the index register, a call-stack slot (R7, R8). -/
abbrev Word := BitVec 16

/-- A 12-bit value: a memory address 0..4095, or the operand NNN (R50, R13). -/
abbrev Addr := BitVec 12

/-- A 4-bit value: one nybble of an opcode, a count N (R13, R14). -/
abbrev Nybble := BitVec 4

/-- A register selector X or Y: it selects V[0] to V[F], all valid (R82). -/
abbrev RegSel := BitVec 4

end Sys2Proof
end

