-- ==== Sys2Proof/Syntax.lean ====
section
/-! DEFINITION. The 35 instructions of 30_encoding.md R87, one constructor per row of spec/opcode_table.json,
in the table's order. -/

namespace Sys2Proof

/-- An instruction with its operands (R87). `x` and `y` are register selectors, `nn` an immediate,
`nnn` an address and `n` a count (R82). -/
inductive Instr where
  /-- 00E0 CLS (R181). -/
  | cls
  /-- 00EE RET (R122). -/
  | ret
  /-- 0NNN SYS NNN (R121). -/
  | sys (nnn : Addr)
  /-- 1NNN JP NNN (R124). -/
  | jp (nnn : Addr)
  /-- 2NNN CALL NNN (R123). -/
  | call (nnn : Addr)
  /-- 3XNN SE Vx, NN (R125). -/
  | seVxNN (x : RegSel) (nn : Byte)
  /-- 4XNN SNE Vx, NN (R126). -/
  | sneVxNN (x : RegSel) (nn : Byte)
  /-- 5XY0 SE Vx, Vy (R127). -/
  | seVxVy (x y : RegSel)
  /-- 6XNN LD Vx, NN (R141). -/
  | ldVxNN (x : RegSel) (nn : Byte)
  /-- 7XNN ADD Vx, NN (R142). -/
  | addVxNN (x : RegSel) (nn : Byte)
  /-- 8XY0 LD Vx, Vy (R143). -/
  | ldVxVy (x y : RegSel)
  /-- 8XY1 OR Vx, Vy (R144). -/
  | orVxVy (x y : RegSel)
  /-- 8XY2 AND Vx, Vy (R145). -/
  | andVxVy (x y : RegSel)
  /-- 8XY3 XOR Vx, Vy (R146). -/
  | xorVxVy (x y : RegSel)
  /-- 8XY4 ADD Vx, Vy (R148). -/
  | addVxVy (x y : RegSel)
  /-- 8XY5 SUB Vx, Vy (R149). -/
  | subVxVy (x y : RegSel)
  /-- 8XY6 SHR Vx, Vy (R150). -/
  | shrVxVy (x y : RegSel)
  /-- 8XY7 SUBN Vx, Vy (R151). -/
  | subnVxVy (x y : RegSel)
  /-- 8XYE SHL Vx, Vy (R152). -/
  | shlVxVy (x y : RegSel)
  /-- 9XY0 SNE Vx, Vy (R128). -/
  | sneVxVy (x y : RegSel)
  /-- ANNN LD I, NNN (R161). -/
  | ldI (nnn : Addr)
  /-- BNNN JP V0, NNN (R131). -/
  | jpV0 (nnn : Addr)
  /-- CXNN RND Vx, NN (R203). -/
  | rnd (x : RegSel) (nn : Byte)
  /-- DXYN DRW Vx, Vy, N (R182). -/
  | drw (x y : RegSel) (n : Nybble)
  /-- EX9E SKP Vx (R201). -/
  | skp (x : RegSel)
  /-- EXA1 SKNP Vx (R202). -/
  | sknp (x : RegSel)
  /-- FX07 LD Vx, DT (R204). -/
  | ldVxDT (x : RegSel)
  /-- FX0A LD Vx, K (R205). -/
  | ldVxK (x : RegSel)
  /-- FX15 LD DT, Vx (R206). -/
  | ldDTVx (x : RegSel)
  /-- FX18 LD ST, Vx (R207). -/
  | ldSTVx (x : RegSel)
  /-- FX1E ADD I, Vx (R162). -/
  | addIVx (x : RegSel)
  /-- FX29 LD F, Vx (R163). -/
  | ldFVx (x : RegSel)
  /-- FX33 LD B, Vx (R164). -/
  | ldBVx (x : RegSel)
  /-- FX55 LD [I], Vx (R165). -/
  | ldMemVx (x : RegSel)
  /-- FX65 LD Vx, [I] (R166). -/
  | ldVxMem (x : RegSel)
deriving DecidableEq, Repr

end Sys2Proof
end

