-- ==== Sys2Proof/Decode.lean ====
section
/-! DEFINITION. Decoding a 16-bit word by nybble patterns in the order of 30_encoding.md R83 and R87, and the
encoder written from the same rows. -/

namespace Sys2Proof

/-! ## The fields of a word (R81) -/

/-- n1 = OP[15:12], the class selector. -/
def fieldN1 (w : Word) : Nybble := w.extractLsb' 12 4

/-- X = OP[11:8], a register selector. -/
def fieldX (w : Word) : RegSel := w.extractLsb' 8 4

/-- Y = OP[7:4], a register selector. -/
def fieldY (w : Word) : RegSel := w.extractLsb' 4 4

/-- N = OP[3:0], a count or sub-function selector. -/
def fieldN (w : Word) : Nybble := w.extractLsb' 0 4

/-- NNN = OP[11:0], an address. -/
def fieldNNN (w : Word) : Addr := w.extractLsb' 0 12

/-- NN = OP[7:0], an immediate or sub-function selector. -/
def fieldNN (w : Word) : Byte := w.extractLsb' 0 8

/-! ## Byte order (R52) -/

/-- The word of two instruction bytes: the byte at the lower address is the high byte. -/
def wordOfBytes (high low : Byte) : Word := high ++ low

/-- The byte of a word that stands at the lower address. -/
def highByte (w : Word) : Byte := w.extractLsb' 8 8

/-- The byte of a word that stands at the higher address. -/
def lowByte (w : Word) : Byte := w.extractLsb' 0 8

/-! ## The opcode map (R83, R87) -/

/-- One pattern of the opcode map: n1 is fixed, and each other nybble is fixed or free (R87). -/
structure Pattern where
  /-- The fixed high nybble. -/
  n1 : Nybble
  /-- The second nybble, where the pattern fixes it. -/
  x : Option Nybble := none
  /-- The third nybble, where the pattern fixes it. -/
  y : Option Nybble := none
  /-- The fourth nybble, where the pattern fixes it. -/
  n : Option Nybble := none
deriving DecidableEq, Repr

/-- A nybble agrees with one place of a pattern: a free place admits every nybble. -/
def fits (place : Option Nybble) (d : Nybble) : Bool :=
  match place with
  | none => true
  | some c => d == c

/-- A word matches a pattern when every fixed nybble agrees (R83, R84). -/
def matchesPattern (p : Pattern) (w : Word) : Bool :=
  fieldN1 w == p.n1 && fits p.x (fieldX w) && fits p.y (fieldY w) && fits p.n (fieldN w)

/-- The 35 rows of R87 in match order, with the instruction each one reads from the word. -/
def opcodeMap : List (Pattern × (Word → Instr)) :=
  [ (⟨0x0, some 0x0, some 0xE, some 0x0⟩, fun _ => .cls),
    (⟨0x0, some 0x0, some 0xE, some 0xE⟩, fun _ => .ret),
    (⟨0x0, none, none, none⟩, fun w => .sys (fieldNNN w)),
    (⟨0x1, none, none, none⟩, fun w => .jp (fieldNNN w)),
    (⟨0x2, none, none, none⟩, fun w => .call (fieldNNN w)),
    (⟨0x3, none, none, none⟩, fun w => .seVxNN (fieldX w) (fieldNN w)),
    (⟨0x4, none, none, none⟩, fun w => .sneVxNN (fieldX w) (fieldNN w)),
    (⟨0x5, none, none, some 0x0⟩, fun w => .seVxVy (fieldX w) (fieldY w)),
    (⟨0x6, none, none, none⟩, fun w => .ldVxNN (fieldX w) (fieldNN w)),
    (⟨0x7, none, none, none⟩, fun w => .addVxNN (fieldX w) (fieldNN w)),
    (⟨0x8, none, none, some 0x0⟩, fun w => .ldVxVy (fieldX w) (fieldY w)),
    (⟨0x8, none, none, some 0x1⟩, fun w => .orVxVy (fieldX w) (fieldY w)),
    (⟨0x8, none, none, some 0x2⟩, fun w => .andVxVy (fieldX w) (fieldY w)),
    (⟨0x8, none, none, some 0x3⟩, fun w => .xorVxVy (fieldX w) (fieldY w)),
    (⟨0x8, none, none, some 0x4⟩, fun w => .addVxVy (fieldX w) (fieldY w)),
    (⟨0x8, none, none, some 0x5⟩, fun w => .subVxVy (fieldX w) (fieldY w)),
    (⟨0x8, none, none, some 0x6⟩, fun w => .shrVxVy (fieldX w) (fieldY w)),
    (⟨0x8, none, none, some 0x7⟩, fun w => .subnVxVy (fieldX w) (fieldY w)),
    (⟨0x8, none, none, some 0xE⟩, fun w => .shlVxVy (fieldX w) (fieldY w)),
    (⟨0x9, none, none, some 0x0⟩, fun w => .sneVxVy (fieldX w) (fieldY w)),
    (⟨0xA, none, none, none⟩, fun w => .ldI (fieldNNN w)),
    (⟨0xB, none, none, none⟩, fun w => .jpV0 (fieldNNN w)),
    (⟨0xC, none, none, none⟩, fun w => .rnd (fieldX w) (fieldNN w)),
    (⟨0xD, none, none, none⟩, fun w => .drw (fieldX w) (fieldY w) (fieldN w)),
    (⟨0xE, none, some 0x9, some 0xE⟩, fun w => .skp (fieldX w)),
    (⟨0xE, none, some 0xA, some 0x1⟩, fun w => .sknp (fieldX w)),
    (⟨0xF, none, some 0x0, some 0x7⟩, fun w => .ldVxDT (fieldX w)),
    (⟨0xF, none, some 0x0, some 0xA⟩, fun w => .ldVxK (fieldX w)),
    (⟨0xF, none, some 0x1, some 0x5⟩, fun w => .ldDTVx (fieldX w)),
    (⟨0xF, none, some 0x1, some 0x8⟩, fun w => .ldSTVx (fieldX w)),
    (⟨0xF, none, some 0x1, some 0xE⟩, fun w => .addIVx (fieldX w)),
    (⟨0xF, none, some 0x2, some 0x9⟩, fun w => .ldFVx (fieldX w)),
    (⟨0xF, none, some 0x3, some 0x3⟩, fun w => .ldBVx (fieldX w)),
    (⟨0xF, none, some 0x5, some 0x5⟩, fun w => .ldMemVx (fieldX w)),
    (⟨0xF, none, some 0x6, some 0x5⟩, fun w => .ldVxMem (fieldX w)) ]

/-- Why bytes are no instruction of the opcode map. -/
inductive DecodeError where
  /-- Fewer than two bytes were given. Every instruction is two bytes (R80). -/
  | truncated
  /-- The word matches no pattern (R85). It is not illegal: the cycle runs the no-operation handler. -/
  | noPattern (w : Word)
deriving DecidableEq, Repr

/-- The first row of a map that a word matches, read from the word. -/
def decodeWith (rows : List (Pattern × (Word → Instr))) (w : Word) : Except DecodeError Instr :=
  match rows with
  | [] => .error (.noPattern w)
  | row :: rest => if matchesPattern row.1 w then .ok (row.2 w) else decodeWith rest w

/-- Decode is a pure function of the word (R104): the first pattern of R87 that matches, or the
rejection of a word of R85, by name. -/
def decode (w : Word) : Except DecodeError Instr := decodeWith opcodeMap w

/-- Decoding of a byte sequence, first byte at the lowest address: one instruction and what follows it. -/
def decodeBytes (bytes : List Byte) : Except DecodeError (Instr × List Byte) :=
  match bytes with
  | high :: low :: rest =>
    match decode (wordOfBytes high low) with
    | .ok i => .ok (i, rest)
    | .error e => .error e
  | _ => .error .truncated

/-- The instruction the decoder reads from the bits `w` of a table row of `nbits` bits (bit 0 the
least significant bit of the word), its bytes laid out as the hardware stores them (R52). -/
def decodeTableWord (nbits w : Nat) : Option Instr :=
  let word : Word := BitVec.ofNat 16 (w % 2 ^ nbits)
  match decodeBytes [highByte word, lowByte word] with
  | .ok (i, _) => some i
  | .error _ => none

/-! ## The encoder (R87) -/

/-- A word of four nybbles. -/
def wordOfNybbles (n1 x y n : Nybble) : Word := n1 ++ x ++ y ++ n

/-- A word of a class and an address NNN. -/
def wordOfAddr (n1 : Nybble) (nnn : Addr) : Word := n1 ++ nnn

/-- A word of a class, a register selector and an immediate NN. -/
def wordOfImm (n1 : Nybble) (x : RegSel) (nn : Byte) : Word := n1 ++ x ++ nn

/-- The word of an instruction, from the pattern column of R87. -/
def encode : Instr → Word
  | .cls => 0x00E0
  | .ret => 0x00EE
  | .sys nnn => wordOfAddr 0x0 nnn
  | .jp nnn => wordOfAddr 0x1 nnn
  | .call nnn => wordOfAddr 0x2 nnn
  | .seVxNN x nn => wordOfImm 0x3 x nn
  | .sneVxNN x nn => wordOfImm 0x4 x nn
  | .seVxVy x y => wordOfNybbles 0x5 x y 0x0
  | .ldVxNN x nn => wordOfImm 0x6 x nn
  | .addVxNN x nn => wordOfImm 0x7 x nn
  | .ldVxVy x y => wordOfNybbles 0x8 x y 0x0
  | .orVxVy x y => wordOfNybbles 0x8 x y 0x1
  | .andVxVy x y => wordOfNybbles 0x8 x y 0x2
  | .xorVxVy x y => wordOfNybbles 0x8 x y 0x3
  | .addVxVy x y => wordOfNybbles 0x8 x y 0x4
  | .subVxVy x y => wordOfNybbles 0x8 x y 0x5
  | .shrVxVy x y => wordOfNybbles 0x8 x y 0x6
  | .subnVxVy x y => wordOfNybbles 0x8 x y 0x7
  | .shlVxVy x y => wordOfNybbles 0x8 x y 0xE
  | .sneVxVy x y => wordOfNybbles 0x9 x y 0x0
  | .ldI nnn => wordOfAddr 0xA nnn
  | .jpV0 nnn => wordOfAddr 0xB nnn
  | .rnd x nn => wordOfImm 0xC x nn
  | .drw x y n => wordOfNybbles 0xD x y n
  | .skp x => wordOfImm 0xE x 0x9E
  | .sknp x => wordOfImm 0xE x 0xA1
  | .ldVxDT x => wordOfImm 0xF x 0x07
  | .ldVxK x => wordOfImm 0xF x 0x0A
  | .ldDTVx x => wordOfImm 0xF x 0x15
  | .ldSTVx x => wordOfImm 0xF x 0x18
  | .addIVx x => wordOfImm 0xF x 0x1E
  | .ldFVx x => wordOfImm 0xF x 0x29
  | .ldBVx x => wordOfImm 0xF x 0x33
  | .ldMemVx x => wordOfImm 0xF x 0x55
  | .ldVxMem x => wordOfImm 0xF x 0x65

/-- The two bytes of an instruction as memory holds them, lowest address first (R52). -/
def encodeBytes (i : Instr) : List Byte := [highByte (encode i), lowByte (encode i)]

end Sys2Proof
end

