-- ==== Sys2Proof/Config.lean ====
section
/-! DEFINITION. The named parameters of 00_scope.md R9, with their defaults, and the free values the
collaborators' ports take when the host has lined up none (10_state.md R41, 92_eei_decisions.md D33). -/

namespace Sys2Proof

/-- `FETCH_OOB_POLICY` (R9, R102): what a fetch with PC + 1 ≥ 4096 does. -/
inductive FetchOobPolicy where
  /-- The fetch returns the word 0x0000. -/
  | substitute
  /-- The fetch raises FETCH_BOUNDS. -/
  | fault
deriving DecidableEq, Repr

/-- `DATA_OOB_POLICY` (R9, R55): what a data address of 4096 or more does. -/
inductive DataOobPolicy where
  /-- The instruction raises MEM_BOUNDS. -/
  | fault
  /-- The address is taken modulo 4096. -/
  | wrap
deriving DecidableEq, Repr

/-- `COLLISION_MODE` (R9, R183): what DXYN reports in V[F]. -/
inductive CollisionMode where
  /-- The collision of the last pixel processed only. -/
  | lastPixel
  /-- Whether any pixel collided. -/
  | anyPixel
deriving DecidableEq, Repr

/-- The named parameters a model takes as arguments (R9). -/
structure Params where
  /-- `FETCH_OOB_POLICY`. -/
  fetchOob : FetchOobPolicy
  /-- `DATA_OOB_POLICY`. -/
  dataOob : DataOobPolicy
  /-- `COLLISION_MODE`. -/
  collision : CollisionMode
  /-- `FONT_BASE`, a 16-bit address. -/
  fontBase : Word
  /-- `FONT_GLYPH_BYTES`, a natural number. -/
  fontGlyphBytes : Nat
  /-- `PC_WIDTH`, the width of PC in bits. -/
  pcWidth : Nat
deriving DecidableEq, Repr

/-- The default of every parameter (R9). -/
def Params.default : Params where
  fetchOob := .substitute
  dataOob := .fault
  collision := .lastPixel
  fontBase := 0x000
  fontGlyphBytes := 5
  pcWidth := 16

/-- FREE VALUE (log 3): what the port key_down shows at the n-th step when the host has lined up no
value (R41, U6). It has no body: nothing can be proved of it but its width. -/
opaque Config.freeKeyDown : Nat → BitVec 16

/-- FREE VALUE (log 3): what the port delay_in shows at the n-th step (R41, U8). -/
opaque Config.freeDelayIn : Nat → BitVec 8

/-- FREE VALUE (log 3): what the port rand_in shows at the n-th step (R41, U7). -/
opaque Config.freeRandIn : Nat → BitVec 8

end Sys2Proof
end

