-- ==== Sys2Proof/Machine/State.lean ====
section
/-! DEFINITION. The state store of 10_state.md R20 as plain data, the ports and events of R41 and R42, the
outcomes' reasons, and the state after reset (R35). -/

namespace Sys2Proof.Machine

/-- Memory (R50) as (address, byte) pairs, addresses strictly rising, listing exactly the bytes that
are not what an unlisted address reads as. `Memory.wf` in Ops.lean says so. -/
abbrev Memory := List Host.Cell

/-- The display bitmap FB (R30): 64 columns of 32 one-bit pixels, so that FB[x][y] is column x, row y;
`true` is a lit pixel. -/
abbrev Display := Vector (Vector Bool 32) 64

/-- The values of the fault status FAULT (R33). Codes 5 to 7 are reserved and never written, so they
are no value here (log 11). Each is set by the `raise` of R222 and by nothing else. -/
inductive FaultCode where
  /-- 0 NONE: the block steps. -/
  | none
  /-- 1 STACK_OVERFLOW: CALL with SP = 16 (R123). -/
  | stackOverflow
  /-- 2 STACK_UNDERFLOW: RET with SP = 0 (R122). -/
  | stackUnderflow
  /-- 3 MEM_BOUNDS: a data address of 4096 or more under DATA_OOB_POLICY = Fault (R55). -/
  | memBounds
  /-- 4 FETCH_BOUNDS: a fetch with PC ≥ 4095 under FETCH_OOB_POLICY = Fault (R102). -/
  | fetchBounds
deriving DecidableEq, Repr

/-- The collaborator input ports of one step (R41). -/
structure Ports where
  /-- Bit k = 1 means key k is down. -/
  keyDown : BitVec 16
  /-- The delay timer's value. -/
  delayIn : Byte
  /-- The random byte. -/
  randIn : Byte
deriving DecidableEq, Repr

/-- The collaborator output events (R42). -/
inductive Event where
  /-- delay_wr: set the delay timer (FX15). -/
  | delayWr (value : Byte)
  /-- sound_wr: set the sound timer (FX18). -/
  | soundWr (value : Byte)
  /-- sys_req: a native-subroutine request (0NNN). -/
  | sysReq (nnn : Addr)
deriving DecidableEq, Repr

/-- The state of the block (R20), with the parameters it was built with (R9), the port values lined up
for it (R41) and the output of its last step (R43). -/
structure State where
  /-- `mem`: 4096 bytes (R50). -/
  mem : Memory
  /-- `V[0..15]`: the general registers (R21); V[F] is also the flag register (R23). -/
  v : Vector Byte 16
  /-- `I`: the index register (R26). -/
  i : Word
  /-- `PC`: the program counter (R27), a natural number of PC_WIDTH bits (log 2). -/
  pc : Nat
  /-- `S[0..15]`: the call-stack slots (R29). -/
  stack : Vector Word 16
  /-- `SP`: the number of call-stack entries in use, 0..16 (R29). -/
  sp : Fin 17
  /-- `FB`: the display bitmap (R30). -/
  fb : Display
  /-- `CHG`: the change flag (R31). -/
  chg : Bool
  /-- `OP`: the current opcode (R32). -/
  op : Word
  /-- `FAULT`: the fault status (R33). -/
  fault : FaultCode
  /-- The parameters of R9. No step changes them (log 1). -/
  params : Params
  /-- The port values lined up for the coming steps, oldest first (R41, R44, log 3). -/
  inputs : List Ports
  /-- THE MODEL'S OWN: how many steps were taken, the argument of the free port values (log 3). -/
  tick : Nat
  /-- The output of the last step: its events, none or one (R43, log 4). -/
  out : List Event
deriving DecidableEq, Repr

/-- The reasons a step could end in `Outcome.fault`: none. The spec describes the entry of every fault
it has (R222), so a fault is a next state whose FAULT is set, and the step is total (R100, log 6). -/
inductive Fault where
deriving DecidableEq, Repr

/-- The reasons an instruction could be refused. -/
inductive Refusal where
  /-- Raised by an arm of `exec` whose instruction has no meaning yet; safe, since the model stops
  where the hardware goes on. No arm raises it: every instruction has its meaning. -/
  | notModelled (mnemonic : String)
deriving DecidableEq, Repr

/-- What a meaning answers. -/
abbrev Result := Host.Outcome State Fault Refusal

/-- The reset state under given parameters: every element at its value in the table of R35. -/
def State.resetWith (p : Params) : State where
  mem := []
  v := Vector.replicate 16 0x00
  i := 0x0000
  pc := 0x0200
  stack := Vector.replicate 16 0x0000
  sp := 0
  fb := Vector.replicate 64 (Vector.replicate 32 false)
  chg := false
  op := 0x0000
  fault := .none
  params := p
  inputs := []
  tick := 0
  out := []

/-- The machine right after reset (R35, R240), with the default parameters of R9. `inputs`, `tick` and
`out` are not the block's architectural state: their values here are log 5. -/
def State.reset : State := State.resetWith Params.default

end Sys2Proof.Machine
end

