-- ==== Sys2Proof/Machine/Ops.lean ====
section
/-! DEFINITION. The named operations over memory, registers, the call stack, the display, the ports and PC
(00_scope.md R11), the fetch (R102), the PC resolver (R108 to R110) and the raise of a fault (R222). -/

namespace Sys2Proof.Machine

/-! ## Memory (R50, R54) -/

/-- What an unlisted address reads as: the reset contents (R35, R36). -/
def unlistedByte : Byte := 0x00

/-- The canonical form from address `low` on: addresses strictly rising, inside the 4096 bytes, and
no listed byte equal to what an unlisted address reads as. -/
def Memory.wfFrom (low : Nat) : Memory → Bool
  | [] => true
  | (a, b) :: rest => decide (low ≤ a) && decide (a < 4096) && (b != unlistedByte) && Memory.wfFrom (a + 1) rest

/-- The canonical form of memory. -/
def Memory.wf (m : Memory) : Bool := Memory.wfFrom 0 m

/-- The byte listed at an address, or what an unlisted address reads as. -/
def lookupByte (a : Nat) : Memory → Byte
  | [] => unlistedByte
  | (b, v) :: rest => if a = b then v else lookupByte a rest

/-- A cell in front of a memory, left out where it would hold what an unlisted address reads as. -/
def consByte (a : Nat) (v : Byte) (m : Memory) : Memory :=
  if v = unlistedByte then m else (a, v) :: m

/-- Memory with the byte at an address replaced, in canonical form. -/
def insertByte (a : Nat) (v : Byte) : Memory → Memory
  | [] => consByte a v []
  | (b, w) :: rest =>
    if a < b then consByte a v ((b, w) :: rest)
    else if a = b then consByte a v rest
    else (b, w) :: insertByte a v rest

/-- `MemRead(a, 1)` (R11). An address of 12 bits is one of the 4096 that exist, so every read answers. -/
def State.readByte (s : State) (a : Addr) : Byte := lookupByte a.toNat s.mem

/-- `MemWrite(a, 1, v)` (R11). -/
def State.writeByte (s : State) (a : Addr) (v : Byte) : State :=
  { s with mem := insertByte a.toNat v s.mem }

/-- Single-byte writes in the order written (R12, R54). -/
def State.writeBytes (s : State) : List (Addr × Byte) → State
  | [] => s
  | (a, v) :: rest => State.writeBytes (s.writeByte a v) rest

/-! ## Data addresses (R55) -/

/-- `DataAddr(ea)`: the address of a data byte, or none where it raises MEM_BOUNDS. -/
def dataAddr (p : Params) (ea : Nat) : Option Addr :=
  if ea < 4096 then some (BitVec.ofNat 12 ea)
  else match p.dataOob with
    | .wrap => some (BitVec.ofNat 12 (ea % 4096))
    | .fault => none

/-- DataAddr of `count` consecutive data bytes from `ea` on, or none where any of them raises. -/
def dataAddrsFrom (p : Params) (ea : Nat) : Nat → Option (List Addr)
  | 0 => some []
  | count + 1 =>
    match dataAddr p ea, dataAddrsFrom p (ea + 1) count with
    | some a, some rest => some (a :: rest)
    | _, _ => none

/-- The addresses I + 0 .. I + (count - 1) of an index-relative access, the sums exact (R55). -/
def State.dataAddrs (s : State) (count : Nat) : Option (List Addr) :=
  dataAddrsFrom s.params s.i.toNat count

/-! ## General registers (R21) -/

/-- The selector of V[F], the flag register (R23). -/
abbrev flagReg : RegSel := 0xF

/-- `V[r]`. -/
def State.reg (s : State) (r : RegSel) : Byte := s.v[r.toNat]'r.isLt

/-- `V[r] <- b`. No register is hardwired (R21). -/
def State.setReg (s : State) (r : RegSel) (b : Byte) : State :=
  { s with v := s.v.set r.toNat b r.isLt }

/-- `I <- w` (R26). -/
def State.setIndex (s : State) (w : Word) : State := { s with i := w }

/-- The values V[k], V[k+1], … of `count` registers. -/
def State.regsFrom (s : State) (k : Nat) : Nat → List Byte
  | 0 => []
  | count + 1 => s.reg (BitVec.ofNat 4 k) :: State.regsFrom s (k + 1) count

/-- `V[k] <- m[0]`, `V[k+1] <- m[1]`, …, in that order. -/
def State.setRegsFrom (s : State) (k : Nat) : List Byte → State
  | [] => s
  | b :: rest => State.setRegsFrom (s.setReg (BitVec.ofNat 4 k) b) (k + 1) rest

/-! ## Directives and the PC resolver (R106 to R111) -/

/-- What a handler returns (R106). -/
inductive Directive where
  /-- Move PC forward by one instruction. -/
  | advance
  /-- Move PC forward as if n + 1 instructions were consumed. -/
  | skip (n : Nat)
  /-- Set PC to an absolute address, unchecked. -/
  | jump (a : Nat)
deriving DecidableEq, Repr

/-- A PC value at the width of PC: modulo 2^PC_WIDTH (R8, R9). -/
def wrapPc (p : Params) (a : Nat) : Nat := a % 2 ^ p.pcWidth

/-- The PC resolver (R108, R109, R110). -/
def resolvePc (p : Params) (d : Directive) (pc : Nat) : Nat :=
  match d with
  | .advance => wrapPc p (pc + 2)
  | .skip n => wrapPc p (pc + 2 * n + 2)
  | .jump a => wrapPc p a

/-- Skip(1) where a condition holds, else Advance (R107). -/
def skipIf (c : Bool) : Directive := if c then .skip 1 else .advance

/-- `PC <- a`. Only the resolver's result is written so (R111). -/
def State.setPc (s : State) (a : Nat) : State := { s with pc := a }

/-- The end of a handler: the PC write comes last (R101, R111). -/
def State.complete (s : State) (d : Directive) : Result := .next (s.setPc (resolvePc s.params d s.pc))

/-! ## Raising a fault (R222) -/

/-- `FAULT <- code` (R33). -/
def State.setFault (s : State) (code : FaultCode) : State := { s with fault := code }

/-- `raise Fault(code)`: FAULT <- code, and no other write. It stands in the read phase only (R12), so
the state it is applied to is the one at the start of the handler, PC at the faulting instruction. -/
def State.raise (s : State) (code : FaultCode) : Result := .next (s.setFault code)

/-- The 3-bit code of a fault status (R33, R221). -/
def faultStatusCode : FaultCode → BitVec 3
  | .none => 0
  | .stackOverflow => 1
  | .stackUnderflow => 2
  | .memBounds => 3
  | .fetchBounds => 4

/-! ## The call stack (R29) -/

/-- The call stack written: the slots and SP. -/
def State.setStack (s : State) (slots : Vector Word 16) (sp : Fin 17) : State :=
  { s with stack := slots, sp := sp }

/-- A push: the slot S[SP] and then SP. None where the stack is full. -/
def State.push (s : State) (w : Word) : Option State :=
  if h : s.sp.val < 16 then
    some (s.setStack (s.stack.set s.sp.val w h) ⟨s.sp.val + 1, Nat.succ_lt_succ h⟩)
  else none

/-- A pop: the top S[SP-1] and the state with SP lowered. The slot is kept (R122). None where the
stack is empty. -/
def State.pop (s : State) : Option (Word × State) :=
  if h : 0 < s.sp.val then
    some (s.stack[s.sp.val - 1]'(by have := s.sp.isLt; omega),
      s.setStack s.stack ⟨s.sp.val - 1, by have := s.sp.isLt; omega⟩)
  else none

/-! ## The display bitmap (R30) -/

/-- `FB[x][y]`. -/
def pixelOf (d : Display) (x : Fin 64) (y : Fin 32) : Bool := d[x.val][y.val]

/-- `FB[x][y] <- b`. -/
def setPixelOf (d : Display) (x : Fin 64) (y : Fin 32) (b : Bool) : Display :=
  d.set x.val (d[x.val].set y.val b)

/-- `FB[x][y]` of a state. -/
def State.pixel (s : State) (x : Fin 64) (y : Fin 32) : Bool := pixelOf s.fb x y

/-- The bitmap written, and CHG <- 1: every instruction that writes the one sets the other (R31). -/
def State.setDisplay (s : State) (d : Display) : State := { s with fb := d, chg := true }

/-- The bitmap with every pixel 0. -/
def blankDisplay : Display := Vector.replicate 64 (Vector.replicate 32 false)

/-! ## Ports and events (R41, R42, R43) -/

/-- The port key_down as this step samples it: what the host lined up, else a free value (log 3). -/
def State.keyDown (s : State) : BitVec 16 :=
  match s.inputs with
  | [] => Config.freeKeyDown s.tick
  | p :: _ => p.keyDown

/-- The port delay_in as this step samples it. -/
def State.delayIn (s : State) : Byte :=
  match s.inputs with
  | [] => Config.freeDelayIn s.tick
  | p :: _ => p.delayIn

/-- The port rand_in as this step samples it. -/
def State.randIn (s : State) : Byte :=
  match s.inputs with
  | [] => Config.freeRandIn s.tick
  | p :: _ => p.randIn

/-- `emit e`: the event joins the output of the step (R43). -/
def State.emit (s : State) (e : Event) : State := { s with out := s.out ++ [e] }

/-! ## The parts of a step around the handler (R100, R102, R103) -/

/-- `Fetch(PC)`: the big-endian word at PC, or none where it raises FETCH_BOUNDS (R102). -/
def State.fetch (s : State) : Option Word :=
  if s.pc + 1 < 4096 then
    some (wordOfBytes (s.readByte (BitVec.ofNat 12 s.pc)) (s.readByte (BitVec.ofNat 12 (s.pc + 1))))
  else match s.params.fetchOob with
    | .substitute => some 0x0000
    | .fault => none

/-- The start of every step: its output is empty so far. -/
def State.clearOutput (s : State) : State := { s with out := [] }

/-- `OP <- w` (R103). -/
def State.latchOpcode (s : State) (w : Word) : State := { s with op := w }

/-- The end of every step: the port values it sampled are past (R41, log 3). -/
def State.passInputs (s : State) : State :=
  { s with inputs := s.inputs.tail, tick := s.tick + 1 }

/-- The end of a step, on whatever its handler answered. -/
def passInputsOf : Result → Result
  | .next s => .next s.passInputs
  | .fault r => .fault r
  | .refused r => .refused r

/-- The state with a word stored where the next step fetches. A step fetches from memory only when it
is not faulted and PC + 1 < 4096, so FAULT is cleared, and a PC outside is put at 0x200 (log 12). -/
def State.placeWord (s : State) (w : Word) : State :=
  let pc := if s.pc + 1 < 4096 then s.pc else 0x200
  ((s.setPc pc).setFault .none).writeBytes [(BitVec.ofNat 12 pc, highByte w), (BitVec.ofNat 12 (pc + 1), lowByte w)]

end Sys2Proof.Machine
end

