-- ==== Sys2Proof/Machine/Operands.lean ====
section
/-! DEFINITION. The operand forms of 30_encoding.md R82 as the handlers use them: addresses, selectors taken from
a register, decimal digits, the glyph address and the lowest key. -/

namespace Sys2Proof.Machine

/-- `zext_16(NNN)` (R82, R10). -/
def zext16 (nnn : Addr) : Word := nnn.zeroExtend 16

/-- `a[3:0]`: the low nybble of a register value (R163, R201). -/
def lowNybble (a : Byte) : Nybble := a.extractLsb' 0 4

/-- The target NNN + V[0] of BNNN, exact: up to 0x10FE, not reduced to 12 bits (R131). -/
def offsetTarget (nnn : Addr) (v0 : Byte) : Nat := nnn.toNat + v0.toNat

/-- The address of a font glyph: FONT_BASE + FONT_GLYPH_BYTES * a[3:0], modulo 2^16 (R163). -/
def glyphAddr (p : Params) (a : Byte) : Word :=
  BitVec.ofNat 16 (p.fontBase.toNat + p.fontGlyphBytes * (lowNybble a).toNat)

/-- The three decimal digits of a register value, hundreds first (R164). -/
def bcdDigits (a : Byte) : List Byte :=
  [BitVec.ofNat 8 (a.toNat / 100), BitVec.ofNat 8 (a.toNat / 10 % 10), BitVec.ofNat 8 (a.toNat % 10)]

/-- I advanced by X + 1, modulo 2^16 (R165, R166). -/
def indexPast (i : Word) (x : RegSel) : Word := BitVec.ofNat 16 (i.toNat + x.toNat + 1)

/-- `key_down[k] = 1` (R201). -/
def keyIsDown (keys : BitVec 16) (k : Nybble) : Bool := keys.getLsbD k.toNat

/-- The lowest index k ≥ `k`, of `count` of them, with key_down[k] = 1; 0 where there is none. -/
def lowestKeyFrom (keys : BitVec 16) (k : Nat) : Nat → Nat
  | 0 => 0
  | count + 1 => if keys.getLsbD k then k else lowestKeyFrom keys (k + 1) count

/-- The lowest index with key_down[k] = 1, where some key is down (R205). -/
def lowestKey (keys : BitVec 16) : Byte := BitVec.ofNat 8 (lowestKeyFrom keys 0 16)

end Sys2Proof.Machine
end

