-- ==== Sys2Proof/Machine/Control.lean ====
section
/-! DEFINITION. The control-flow family of 41_control_flow.md and the no-operation handler (R120 to R132). A
handler is run on the state after the fetch, so `pc` is its own address (R27, R101). -/

namespace Sys2Proof.Machine

/-- SYS NNN (R121): the request event, and Advance. -/
def execSys (nnn : Addr) (s : State) : Result := (s.emit (.sysReq nnn)).complete .advance

/-- RET (R122): pop and jump, or STACK_UNDERFLOW on an empty stack. -/
def execRet (s : State) : Result :=
  match s.pop with
  | some (a, t) => t.complete (.jump a.toNat)
  | none => s.raise .stackUnderflow

/-- CALL NNN (R123): push PC + 2 and jump, or STACK_OVERFLOW on a full stack. -/
def execCall (nnn : Addr) (s : State) : Result :=
  match s.push (BitVec.ofNat 16 (wrapPc s.params (s.pc + 2))) with
  | some t => t.complete (.jump (zext16 nnn).toNat)
  | none => s.raise .stackOverflow

/-- JP NNN (R124). -/
def execJp (nnn : Addr) (s : State) : Result := s.complete (.jump (zext16 nnn).toNat)

/-- JP V0, NNN (R131). -/
def execJpV0 (nnn : Addr) (s : State) : Result := s.complete (.jump (offsetTarget nnn (s.reg 0)))

/-- SE Vx, NN (R125). -/
def execSeVxNN (x : RegSel) (nn : Byte) (s : State) : Result := s.complete (skipIf (s.reg x == nn))

/-- SNE Vx, NN (R126). -/
def execSneVxNN (x : RegSel) (nn : Byte) (s : State) : Result := s.complete (skipIf (s.reg x != nn))

/-- SE Vx, Vy (R127). -/
def execSeVxVy (x y : RegSel) (s : State) : Result := s.complete (skipIf (s.reg x == s.reg y))

/-- SNE Vx, Vy (R128). -/
def execSneVxVy (x y : RegSel) (s : State) : Result := s.complete (skipIf (s.reg x != s.reg y))

/-- The no-operation handler, for every word that matches no pattern (R85, R132). -/
def execNoOperation (s : State) : Result := s.complete .advance

end Sys2Proof.Machine
end

