-- ==== Sys2Proof/Machine/Cycle.lean ====
section
/-! DEFINITION. The cycle of 40_cycle.md R100, over the dispatch it runs: fetch, latch OP, decode, execute, resolve. -/

namespace Sys2Proof.Machine

/-- The handler of a fetched word: the instruction it decodes to, or the no-operation handler (R105). -/
def handleWord (dispatch : Instr → State → Result) (w : Word) (s : State) : Result :=
  match decode w with
  | .ok i => dispatch i s
  | .error _ => execNoOperation s

/-- One `step` (R100). A faulted block changes nothing and emits nothing (R223). A fetch that raises
leaves OP (R103). Otherwise OP takes the word and its handler runs. In every case the sampled port
values pass (log 3, log 10). -/
def cycle (dispatch : Instr → State → Result) (s : State) : Result :=
  if s.fault = .none then
    match s.fetch with
    | some w => passInputsOf (handleWord dispatch w (s.clearOutput.latchOpcode w))
    | none => passInputsOf (s.clearOutput.raise .fetchBounds)
  else .next s.clearOutput.passInputs

end Sys2Proof.Machine
end

