-- ==== Sys2Proof/Machine/Flags.lean ====
section
/-! DEFINITION. The flag values of 10_state.md R24 and the order of the two writes of 42_alu.md R147. -/

namespace Sys2Proof.Machine

/-- A flag as the register value V[F] takes: 1 or 0 (R24). -/
def flagByte (c : Bool) : Byte := if c then 1 else 0

/-- The carry out of bit 7 of a + b (R148). -/
def carryOut (a b : Byte) : Bool := decide (a.toNat + b.toNat > 255)

/-- No borrow occurs in a - b (R149, R151). -/
def noBorrow (a b : Byte) : Bool := decide (a.toNat ≥ b.toNat)

/-- The bit a right shift moves out (R150). -/
def lowBit (b : Byte) : Bool := b.getLsbD 0

/-- The bit a left shift moves out (R152). -/
def highBit (b : Byte) : Bool := b.getLsbD 7

/-- The two writes of a flag-writing form: V[X] first, V[F] last, so with X = F the flag stays (R147). -/
def State.setRegAndFlag (s : State) (x : RegSel) (r : Byte) (f : Bool) : State :=
  (s.setReg x r).setReg flagReg (flagByte f)

end Sys2Proof.Machine
end

