-- ==== Sys2Proof/Machine/Alu.lean ====
section
/-! DEFINITION. The ALU family of 42_alu.md (R140 to R153). Operands are read from the state before any write
(R12); 8-bit arithmetic wraps modulo 256. -/

namespace Sys2Proof.Machine

/-- LD Vx, NN (R141). -/
def execLdVxNN (x : RegSel) (nn : Byte) (s : State) : Result := (s.setReg x nn).complete .advance

/-- ADD Vx, NN (R142): no flag effect. -/
def execAddVxNN (x : RegSel) (nn : Byte) (s : State) : Result :=
  (s.setReg x (s.reg x + nn)).complete .advance

/-- LD Vx, Vy (R143). -/
def execLdVxVy (x y : RegSel) (s : State) : Result := (s.setReg x (s.reg y)).complete .advance

/-- OR Vx, Vy (R144): no flag effect. -/
def execOrVxVy (x y : RegSel) (s : State) : Result :=
  (s.setReg x (s.reg x ||| s.reg y)).complete .advance

/-- AND Vx, Vy (R145): no flag effect. -/
def execAndVxVy (x y : RegSel) (s : State) : Result :=
  (s.setReg x (s.reg x &&& s.reg y)).complete .advance

/-- XOR Vx, Vy (R146): no flag effect. -/
def execXorVxVy (x y : RegSel) (s : State) : Result :=
  (s.setReg x (s.reg x ^^^ s.reg y)).complete .advance

/-- ADD Vx, Vy (R148): V[F] is the carry out of bit 7. -/
def execAddVxVy (x y : RegSel) (s : State) : Result :=
  (s.setRegAndFlag x (s.reg x + s.reg y) (carryOut (s.reg x) (s.reg y))).complete .advance

/-- SUB Vx, Vy (R149): V[F] = 1 where no borrow occurs. -/
def execSubVxVy (x y : RegSel) (s : State) : Result :=
  (s.setRegAndFlag x (s.reg x - s.reg y) (noBorrow (s.reg x) (s.reg y))).complete .advance

/-- SHR Vx, Vy (R150): the shifted source is V[Y]; V[F] is the bit shifted out. -/
def execShrVxVy (x y : RegSel) (s : State) : Result :=
  (s.setRegAndFlag x (s.reg y >>> 1) (lowBit (s.reg y))).complete .advance

/-- SUBN Vx, Vy (R151): V[Y] minus V[X], into V[X]. -/
def execSubnVxVy (x y : RegSel) (s : State) : Result :=
  (s.setRegAndFlag x (s.reg y - s.reg x) (noBorrow (s.reg y) (s.reg x))).complete .advance

/-- SHL Vx, Vy (R152): the shifted source is V[Y]; V[F] is the bit shifted out. -/
def execShlVxVy (x y : RegSel) (s : State) : Result :=
  (s.setRegAndFlag x (s.reg y <<< 1) (highBit (s.reg y))).complete .advance

end Sys2Proof.Machine
end

