-- ==== Sys2Proof/Machine/Collaborator.lean ====
section
/-! DEFINITION. The collaborator-dependent family of 45_collaborator.md: keys, randomness and timers, each at the
port or event it uses (R200 to R207). -/

namespace Sys2Proof.Machine

/-- SKP Vx (R201). -/
def execSkp (x : RegSel) (s : State) : Result :=
  s.complete (skipIf (keyIsDown s.keyDown (lowNybble (s.reg x))))

/-- SKNP Vx (R202). -/
def execSknp (x : RegSel) (s : State) : Result :=
  s.complete (skipIf (!keyIsDown s.keyDown (lowNybble (s.reg x))))

/-- RND Vx, NN (R203). -/
def execRnd (x : RegSel) (nn : Byte) (s : State) : Result :=
  (s.setReg x (s.randIn &&& nn)).complete .advance

/-- LD Vx, DT (R204). -/
def execLdVxDT (x : RegSel) (s : State) : Result := (s.setReg x s.delayIn).complete .advance

/-- The register write of LD Vx, K: the lowest key down, and nothing where no key is down (R205). -/
def State.takeKey (s : State) (x : RegSel) : State :=
  if s.keyDown = 0 then s else s.setReg x (lowestKey s.keyDown)

/-- The directive of LD Vx, K: its own address where no key is down (R205). -/
def keyWait (s : State) : Directive := if s.keyDown = 0 then .jump s.pc else .advance

/-- LD Vx, K (R205): wait by running again, or take the lowest key down. -/
def execLdVxK (x : RegSel) (s : State) : Result := (s.takeKey x).complete (keyWait s)

/-- LD DT, Vx (R206). -/
def execLdDTVx (x : RegSel) (s : State) : Result := (s.emit (.delayWr (s.reg x))).complete .advance

/-- LD ST, Vx (R207). -/
def execLdSTVx (x : RegSel) (s : State) : Result := (s.emit (.soundWr (s.reg x))).complete .advance

end Sys2Proof.Machine
end

