-- ==== Sys2Proof/Machine/Display.lean ====
section
/-! DEFINITION. The display family of 44_display.md: CLS, and DRW with its XOR compositor, collision detector and
per-axis wraparound (R180 to R188). -/

namespace Sys2Proof.Machine

/-- CLS (R181): every pixel 0, CHG set. -/
def execCls (s : State) : Result := (s.setDisplay blankDisplay).complete .advance

/-- What the compositor carries from pixel to pixel (R182). -/
structure Compositor where
  /-- The bitmap so far. -/
  fb : Display
  /-- V[F] so far, rewritten by each pixel under LastPixel (R183). -/
  vf : Byte
  /-- Whether any pixel so far collided. -/
  any : Bool
deriving DecidableEq, Repr

/-- The column (x0 + b) mod 64 (R184). -/
def columnOf (x0 : Byte) (b : Nat) : Fin 64 := Fin.ofNat 64 (x0.toNat + b)

/-- The row (y0 + r) mod 32 (R184). -/
def lineOf (y0 : Byte) (r : Nat) : Fin 32 := Fin.ofNat 32 (y0.toNat + r)

/-- One pixel of a sprite: bit-offset `b` of the byte of row `r`, bit-offset 0 being bit 7 (R182). -/
def drawPixel (mode : CollisionMode) (x0 y0 : Byte) (row : Byte) (r b : Nat) (c : Compositor) : Compositor :=
  let bit := row.getLsbD (7 - b)
  let old := pixelOf c.fb (columnOf x0 b) (lineOf y0 r)
  let hit := old && bit
  { fb := setPixelOf c.fb (columnOf x0 b) (lineOf y0 r) (old ^^ bit)
    vf := match mode with
      | .lastPixel => flagByte hit
      | .anyPixel => c.vf
    any := c.any || hit }

/-- The pixels of one row from bit-offset `b` on, `count` of them, in order. -/
def drawRowFrom (mode : CollisionMode) (x0 y0 : Byte) (row : Byte) (r b : Nat) : Nat → Compositor → Compositor
  | 0, c => c
  | count + 1, c =>
    drawRowFrom mode x0 y0 row r (b + 1) count (drawPixel mode x0 y0 row r b c)

/-- The rows of a sprite from row `r` on, in order, eight pixels each. -/
def drawRowsFrom (mode : CollisionMode) (x0 y0 : Byte) (r : Nat) : List Byte → Compositor → Compositor
  | [], c => c
  | row :: rest, c =>
    drawRowsFrom mode x0 y0 (r + 1) rest (drawRowFrom mode x0 y0 row r 0 8 c)

/-- V[F] after a draw (R183, R186). -/
def collisionFlag (mode : CollisionMode) (c : Compositor) : Byte :=
  match mode with
  | .lastPixel => c.vf
  | .anyPixel => flagByte c.any

/-- DRW Vx, Vy, N (R182): the coordinates and the sprite bytes are read before any pixel is written,
and CHG is set last (R185). With N = 0 no byte is read and no pixel drawn (R186). -/
def execDrw (x y : RegSel) (n : Nybble) (s : State) : Result :=
  match s.dataAddrs n.toNat with
  | some addrs =>
    let c := drawRowsFrom s.params.collision (s.reg x) (s.reg y) 0 (addrs.map s.readByte)
      { fb := s.fb, vf := s.reg flagReg, any := false }
    ((s.setReg flagReg (collisionFlag s.params.collision c)).setDisplay c.fb).complete .advance
  | none => s.raise .memBounds

end Sys2Proof.Machine
end

