-- ==== Sys2Proof/Machine/Index.lean ====
section
/-! DEFINITION. The index-register and memory family of 43_index_memory.md (R160 to R167). Every address is
computed before anything is written, so an access out of bounds under `Fault` writes nothing (R55). -/

namespace Sys2Proof.Machine

/-- LD I, NNN (R161). -/
def execLdI (nnn : Addr) (s : State) : Result := (s.setIndex (zext16 nnn)).complete .advance

/-- ADD I, Vx (R162): modulo 2^16, no flag effect. -/
def execAddIVx (x : RegSel) (s : State) : Result :=
  (s.setIndex (s.i + (s.reg x).zeroExtend 16)).complete .advance

/-- LD F, Vx (R163). -/
def execLdFVx (x : RegSel) (s : State) : Result :=
  (s.setIndex (glyphAddr s.params (s.reg x))).complete .advance

/-- LD B, Vx (R164): the three digits at I, I + 1, I + 2; I is kept. -/
def execLdBVx (x : RegSel) (s : State) : Result :=
  match s.dataAddrs 3 with
  | some addrs => (s.writeBytes (addrs.zip (bcdDigits (s.reg x)))).complete .advance
  | none => s.raise .memBounds

/-- LD [I], Vx (R165): V[0..X] stored from I on; I past them. -/
def execLdMemVx (x : RegSel) (s : State) : Result :=
  match s.dataAddrs (x.toNat + 1) with
  | some addrs =>
    ((s.writeBytes (addrs.zip (s.regsFrom 0 (x.toNat + 1)))).setIndex (indexPast s.i x)).complete .advance
  | none => s.raise .memBounds

/-- LD Vx, [I] (R166): V[0..X] loaded from I on; I past them. -/
def execLdVxMem (x : RegSel) (s : State) : Result :=
  match s.dataAddrs (x.toNat + 1) with
  | some addrs =>
    ((s.setRegsFrom 0 (addrs.map s.readByte)).setIndex (indexPast s.i x)).complete .advance
  | none => s.raise .memBounds

end Sys2Proof.Machine
end

