-- ==== Sys2Proof/Machine/Step.lean ====
section
/-! DEFINITION. One step of the block (R100), and the placing of one instruction where it is fetched. -/

namespace Sys2Proof.Machine

/-- One `step`: one fetch, decode, execute, resolve cycle (R100). -/
def step (s : State) : Host.Outcome State Fault Refusal := cycle exec s

/-- The state with the instruction of a table row (`nbits` bits, `w`) stored where the next step
fetches, so that the very next step runs it (log 12). -/
def State.withFetchWord (s : State) (nbits w : Nat) : State :=
  s.placeWord (BitVec.ofNat 16 (w % 2 ^ nbits))

end Sys2Proof.Machine
end

