-- ==== Sys2Proof/Machine/HostOps.lean ====
section
/-! DEFINITION. What the host may do to the block between steps (10_state.md R40, R44, R45). None is an
instruction, and none writes the registers, I, PC, the stack or the bitmap (R44), but for reset. -/

namespace Sys2Proof.Machine

/-- `rst` (R240): every state element at its value in R35, memory included. The parameters stay, and
so does what the collaborators present: reset does not change their state (log 13). -/
def State.rst (s : State) : State :=
  { State.resetWith s.params with inputs := s.inputs, tick := s.tick }

/-- The loader's bytes from an address on. Bytes that would exceed the 4096-byte bound are dropped (R44). -/
def State.loadFrom (s : State) (a : Nat) : List Byte → State
  | [] => s
  | b :: rest => State.loadFrom (if a < 4096 then s.writeByte (BitVec.ofNat 12 a) b else s) (a + 1) rest

/-- `load(bytes)` (R44): the program at offset 512, truncated, whatever FAULT holds. -/
def State.load (s : State) (bytes : List Byte) : State := s.loadFrom 512 bytes

/-- `clear_change` (R44): CHG <- 0. -/
def State.clearChange (s : State) : State := { s with chg := false }

/-- The collaborators line up the port values of the coming steps, oldest first (R44, log 3). -/
def State.present (s : State) (values : List Ports) : State := { s with inputs := values }

/-- The debug memory read `mem_read(a)` for 0 ≤ a < 4096 (R44): it changes nothing. -/
def State.memRead (s : State) (a : Addr) : Byte := s.readByte a

/-- What the renderer reads: FB and CHG (R44). -/
def State.rendererView (s : State) : Display × Bool := (s.fb, s.chg)

/-- The debug snapshot (R45). -/
structure Snapshot where
  /-- I. -/
  i : Word
  /-- V[0..15]. -/
  v : Vector Byte 16
  /-- PC. -/
  pc : Nat
  /-- S[0..15], stale slots included. -/
  stack : Vector Word 16
  /-- SP. -/
  sp : Fin 17
  /-- OP. -/
  op : Word
  /-- FAULT, as its 3-bit code. -/
  fault : BitVec 3
deriving DecidableEq, Repr

/-- The debug read of the snapshot (R45): it changes nothing. -/
def State.snapshot (s : State) : Snapshot :=
  { i := s.i, v := s.v, pc := s.pc, stack := s.stack, sp := s.sp, op := s.op,
    fault := faultStatusCode s.fault }

end Sys2Proof.Machine
end

