-- ==== Sys2Proof/Safety.lean ====
section
/-! DEFINITION. The words claims are stated in: a safe run and its end, the frame of a handler, the invariant of the
machine, and the spec's own tables of who may do what. -/

namespace Sys2Proof.Machine

/-! ## Safe runs and their end -/

/-- The block steps: no fault is recorded (R33, R223). -/
def State.running (s : State) : Prop := s.fault = .none

/-- PC stands at `halt`, and the word there is a JP to itself (R124, R248). -/
def State.selfJumpAt (s : State) (halt : Nat) : Prop :=
  s.pc = halt ∧ ∃ nnn : Addr, nnn.toNat = halt ∧ s.fetch = some (0x1#4 ++ nnn)

/-- The end of a run as this model defines it, as R248 asks of a model: FAULT ≠ 0, or PC equals a named
address holding a jump to itself. -/
def State.ended (s : State) (halt : Nat) : Prop := ¬ s.running ∨ s.selfJumpAt halt

/-! ## Values the rules name -/

/-- PC moved forward by `k`, at the width of PC (R108, R109; `mod 2^16` with the default PC_WIDTH, R9). -/
def pcPlus (s : State) (k : Nat) : Nat := (s.pc + k) % 2 ^ s.params.pcWidth

/-- An index-relative access of `count` bytes raises no fault: it touches no byte, or it ends inside
the 4096 bytes, or DATA_OOB_POLICY is Wrap (R55). -/
def State.accessInside (s : State) (count : Nat) : Prop :=
  count = 0 ∨ s.i.toNat + count ≤ 4096 ∨ s.params.dataOob = .wrap

/-- The address of byte `k` of an index-relative access that raises no fault: I + k, which is below
4096 or is taken modulo 4096 under Wrap (R55). -/
def State.indexed (s : State) (k : Nat) : Addr := BitVec.ofNat 12 (s.i.toNat + k)

/-- The sprite bytes of a draw of `n` rows (R182). -/
def State.spriteRows (s : State) (n : Nat) : List Byte := (List.range n).map fun k => s.readByte (s.indexed k)

/-- The bit a sprite at (x0, y0) has at a pixel: the pixel's column lies b = (px - x0) mod 64 to the
right and its line r = (py - y0) mod 32 below; outside 8 columns or the sprite's rows it has none
(R182, R184). -/
def spriteBit (x0 y0 : Byte) (rows : List Byte) (px : Fin 64) (py : Fin 32) : Bool :=
  let b := (px.val + 64 - x0.toNat % 64) % 64
  let r := (py.val + 32 - y0.toNat % 32) % 32
  decide (b < 8) && (rows.getD r 0).getLsbD (7 - b)

/-! ## Frames -/

/-- The parts of the state beside registers, memory, PC, OP and FAULT that a handler may write. -/
inductive Part where
  /-- The index register I. -/
  | index
  /-- The call stack: SP and S. -/
  | stack
  /-- The display: FB and CHG. -/
  | display
  /-- The output of the step. -/
  | output
deriving DecidableEq, Repr

/-- What a handler leaves unchanged: every register but those of `regs`, every byte of memory but those
at `bytes`, every part but those listed, and OP, FAULT, the parameters, the lined-up port values and
the model's counter. PC may change. -/
def Frame (regs : RegSel → Prop) (bytes : Addr → Prop) (parts : List Part) (s t : State) : Prop :=
  (∀ r, ¬ regs r → t.reg r = s.reg r) ∧
  (∀ a, ¬ bytes a → t.readByte a = s.readByte a) ∧
  (Part.index ∉ parts → t.i = s.i) ∧
  (Part.stack ∉ parts → t.sp = s.sp ∧ t.stack = s.stack) ∧
  (Part.display ∉ parts → t.fb = s.fb ∧ t.chg = s.chg) ∧
  (Part.output ∉ parts → t.out = s.out) ∧
  t.op = s.op ∧ t.fault = s.fault ∧ t.params = s.params ∧ t.inputs = s.inputs ∧ t.tick = s.tick

/-- Two states hold the same block: they differ at most in the output of the step, in the port values
lined up and in the model's counter, none of which is the block's architectural state (R20). -/
def SameBlock (s t : State) : Prop := t = { s with out := t.out, inputs := t.inputs, tick := t.tick }

/-- No register is written. -/
def noReg : RegSel → Prop := fun _ => False

/-- No byte of memory is written. -/
def noByte : Addr → Prop := fun _ => False

/-! ## The invariant -/

/-- What a recorded fault says of the state (R221): the stack is full or empty, the policy that lets
the fault arise is in force, and some address was out of bounds; and no event was emitted (R222). -/
def State.faultRecord (s : State) : Prop :=
  match s.fault with
  | .none => True
  | .stackOverflow => s.sp.val = 16 ∧ s.out = []
  | .stackUnderflow => s.sp.val = 0 ∧ s.out = []
  | .memBounds => s.params.dataOob = .fault ∧ 4096 < s.i.toNat + 16 ∧ s.out = []
  | .fetchBounds => s.params.fetchOob = .fault ∧ 4096 ≤ s.pc + 1 ∧ s.out = []

/-- The invariant of the machine: memory is canonical, PC fits its width (R27), the output holds at
most one event (R43), every call-stack slot holds at most 0x1000 (R123), and a recorded fault is one
R221 gives. -/
def State.Inv (s : State) : Prop :=
  s.mem.wf = true ∧ s.pc < 2 ^ s.params.pcWidth ∧ s.out.length ≤ 1 ∧
  (∀ k : Fin 16, s.stack[k.val].toNat ≤ 0x1000) ∧ s.faultRecord

/-! ## The spec's tables, by word and by instruction -/

/-- The list of R85 over the class n1, the low nybble n and the low byte nn of a word. -/
def noPatternFields (n1 n nn : Nat) : Prop :=
  (n1 = 0x5 ∧ n ≠ 0) ∨
  (n1 = 0x8 ∧ (n = 0x8 ∨ n = 0x9 ∨ n = 0xA ∨ n = 0xB ∨ n = 0xC ∨ n = 0xD ∨ n = 0xF)) ∨
  (n1 = 0x9 ∧ n ≠ 0) ∨
  (n1 = 0xE ∧ nn ≠ 0x9E ∧ nn ≠ 0xA1) ∨
  (n1 = 0xF ∧ nn ≠ 0x07 ∧ nn ≠ 0x0A ∧ nn ≠ 0x15 ∧ nn ≠ 0x18 ∧ nn ≠ 0x1E ∧ nn ≠ 0x29 ∧ nn ≠ 0x33 ∧
    nn ≠ 0x55 ∧ nn ≠ 0x65)

/-- The words of R85: those that match no pattern. -/
def matchesNothing (w : Word) : Prop := noPatternFields (w.toNat / 4096) (w.toNat % 16) (w.toNat % 256)

/-- The mask column of the opcode table (R88). -/
def opcodeMask : Instr → Word
  | .cls | .ret => 0xFFFF
  | .sys _ | .jp _ | .call _ | .ldI _ | .jpV0 _ => 0xF000
  | .seVxNN _ _ | .sneVxNN _ _ | .ldVxNN _ _ | .addVxNN _ _ | .rnd _ _ | .drw _ _ _ => 0xF000
  | .seVxVy _ _ | .sneVxVy _ _ | .ldVxVy _ _ | .orVxVy _ _ | .andVxVy _ _ | .xorVxVy _ _
  | .addVxVy _ _ | .subVxVy _ _ | .shrVxVy _ _ | .subnVxVy _ _ | .shlVxVy _ _ => 0xF00F
  | .skp _ | .sknp _ | .ldVxDT _ | .ldVxK _ | .ldDTVx _ | .ldSTVx _ | .addIVx _ | .ldFVx _
  | .ldBVx _ | .ldMemVx _ | .ldVxMem _ => 0xF0FF

/-- The match column of the opcode table (R88). -/
def opcodeMatch : Instr → Word
  | .cls => 0x00E0
  | .ret => 0x00EE
  | .sys _ => 0x0000
  | .jp _ => 0x1000
  | .call _ => 0x2000
  | .seVxNN _ _ => 0x3000
  | .sneVxNN _ _ => 0x4000
  | .seVxVy _ _ => 0x5000
  | .ldVxNN _ _ => 0x6000
  | .addVxNN _ _ => 0x7000
  | .ldVxVy _ _ => 0x8000
  | .orVxVy _ _ => 0x8001
  | .andVxVy _ _ => 0x8002
  | .xorVxVy _ _ => 0x8003
  | .addVxVy _ _ => 0x8004
  | .subVxVy _ _ => 0x8005
  | .shrVxVy _ _ => 0x8006
  | .subnVxVy _ _ => 0x8007
  | .shlVxVy _ _ => 0x800E
  | .sneVxVy _ _ => 0x9000
  | .ldI _ => 0xA000
  | .jpV0 _ => 0xB000
  | .rnd _ _ => 0xC000
  | .drw _ _ _ => 0xD000
  | .skp _ => 0xE09E
  | .sknp _ => 0xE0A1
  | .ldVxDT _ => 0xF007
  | .ldVxK _ => 0xF00A
  | .ldDTVx _ => 0xF015
  | .ldSTVx _ => 0xF018
  | .addIVx _ => 0xF01E
  | .ldFVx _ => 0xF029
  | .ldBVx _ => 0xF033
  | .ldMemVx _ => 0xF055
  | .ldVxMem _ => 0xF065

/-- The directive column of the opcode table (R87, R107). -/
inductive DirectiveClass where
  /-- Advance. -/
  | advance
  /-- Skip(1)/Advance. -/
  | skip
  /-- Jump. -/
  | jump
  /-- Advance/Jump(PC). -/
  | wait
deriving DecidableEq, Repr

/-- The directive column of the opcode table, by instruction (R87, R107). -/
def directiveClass : Instr → DirectiveClass
  | .ret | .jp _ | .call _ | .jpV0 _ => .jump
  | .seVxNN _ _ | .sneVxNN _ _ | .seVxVy _ _ | .sneVxVy _ _ | .skp _ | .sknp _ => .skip
  | .ldVxK _ => .wait
  | .cls | .sys _ | .ldVxNN _ _ | .addVxNN _ _ | .ldVxVy _ _ | .orVxVy _ _ | .andVxVy _ _
  | .xorVxVy _ _ | .addVxVy _ _ | .subVxVy _ _ | .shrVxVy _ _ | .subnVxVy _ _ | .shlVxVy _ _
  | .ldI _ | .rnd _ _ | .drw _ _ _ | .ldVxDT _ | .ldDTVx _ | .ldSTVx _ | .addIVx _ | .ldFVx _
  | .ldBVx _ | .ldMemVx _ | .ldVxMem _ => .advance

/-- The registers an instruction may write: the table of R22. -/
def writesReg (s : State) : Instr → RegSel → Prop
  | .ldVxNN x _, r | .addVxNN x _, r | .ldVxVy x _, r | .orVxVy x _, r | .andVxVy x _, r
  | .xorVxVy x _, r | .rnd x _, r | .ldVxDT x, r => r = x
  | .ldVxK x, r => r = x ∧ s.keyDown ≠ 0x0000
  | .addVxVy x _, r | .subVxVy x _, r | .shrVxVy x _, r | .subnVxVy x _, r | .shlVxVy x _, r =>
    r = x ∨ r = 0xF
  | .drw _ _ n, r => r = 0xF ∧ (n ≠ 0 ∨ s.params.collision = .anyPixel)
  | .ldVxMem x, r => r.toNat ≤ x.toNat
  | .cls, _ | .ret, _ | .sys _, _ | .jp _, _ | .call _, _ | .seVxNN _ _, _ | .sneVxNN _ _, _
  | .seVxVy _ _, _ | .sneVxVy _ _, _ | .ldI _, _ | .jpV0 _, _ | .skp _, _ | .sknp _, _
  | .ldDTVx _, _ | .ldSTVx _, _ | .addIVx _, _ | .ldFVx _, _ | .ldBVx _, _ | .ldMemVx _, _ => False

/-- How many data bytes an instruction touches, for the four that touch memory (R51). -/
def dataBytes : Instr → Option Nat
  | .drw _ _ n => some n.toNat
  | .ldBVx _ => some 3
  | .ldMemVx x => some (x.toNat + 1)
  | .ldVxMem x => some (x.toNat + 1)
  | .cls | .ret | .sys _ | .jp _ | .call _ | .seVxNN _ _ | .sneVxNN _ _ | .seVxVy _ _
  | .ldVxNN _ _ | .addVxNN _ _ | .ldVxVy _ _ | .orVxVy _ _ | .andVxVy _ _ | .xorVxVy _ _
  | .addVxVy _ _ | .subVxVy _ _ | .shrVxVy _ _ | .subnVxVy _ _ | .shlVxVy _ _ | .sneVxVy _ _
  | .ldI _ | .jpV0 _ | .rnd _ _ | .skp _ | .sknp _ | .ldVxDT _ | .ldVxK _ | .ldDTVx _ | .ldSTVx _
  | .addIVx _ | .ldFVx _ => none

/-- The instruction writes memory (R51). -/
def writesMemory : Instr → Bool
  | .ldBVx _ | .ldMemVx _ => true
  | .cls | .ret | .sys _ | .jp _ | .call _ | .seVxNN _ _ | .sneVxNN _ _ | .seVxVy _ _
  | .ldVxNN _ _ | .addVxNN _ _ | .ldVxVy _ _ | .orVxVy _ _ | .andVxVy _ _ | .xorVxVy _ _
  | .addVxVy _ _ | .subVxVy _ _ | .shrVxVy _ _ | .subnVxVy _ _ | .shlVxVy _ _ | .sneVxVy _ _
  | .ldI _ | .jpV0 _ | .rnd _ _ | .drw _ _ _ | .skp _ | .sknp _ | .ldVxDT _ | .ldVxK _ | .ldDTVx _
  | .ldSTVx _ | .addIVx _ | .ldFVx _ | .ldVxMem _ => false

/-- The instruction writes I (R26). -/
def writesIndex : Instr → Bool
  | .ldI _ | .addIVx _ | .ldFVx _ | .ldMemVx _ | .ldVxMem _ => true
  | .cls | .ret | .sys _ | .jp _ | .call _ | .seVxNN _ _ | .sneVxNN _ _ | .seVxVy _ _
  | .ldVxNN _ _ | .addVxNN _ _ | .ldVxVy _ _ | .orVxVy _ _ | .andVxVy _ _ | .xorVxVy _ _
  | .addVxVy _ _ | .subVxVy _ _ | .shrVxVy _ _ | .subnVxVy _ _ | .shlVxVy _ _ | .sneVxVy _ _
  | .jpV0 _ | .rnd _ _ | .drw _ _ _ | .skp _ | .sknp _ | .ldVxDT _ | .ldVxK _ | .ldDTVx _
  | .ldSTVx _ | .ldBVx _ => false

/-- The event an instruction emits (R42). -/
def emitted (s : State) : Instr → List Event
  | .sys nnn => [.sysReq nnn]
  | .ldDTVx x => [.delayWr (s.reg x)]
  | .ldSTVx x => [.soundWr (s.reg x)]
  | .cls | .ret | .jp _ | .call _ | .seVxNN _ _ | .sneVxNN _ _ | .seVxVy _ _
  | .ldVxNN _ _ | .addVxNN _ _ | .ldVxVy _ _ | .orVxVy _ _ | .andVxVy _ _ | .xorVxVy _ _
  | .addVxVy _ _ | .subVxVy _ _ | .shrVxVy _ _ | .subnVxVy _ _ | .shlVxVy _ _ | .sneVxVy _ _
  | .ldI _ | .jpV0 _ | .rnd _ _ | .drw _ _ _ | .skp _ | .sknp _ | .ldVxDT _ | .ldVxK _
  | .addIVx _ | .ldFVx _ | .ldBVx _ | .ldMemVx _ | .ldVxMem _ => []

/-- The instruction reads a port (R41). -/
def readsPort : Instr → Bool
  | .rnd _ _ | .skp _ | .sknp _ | .ldVxDT _ | .ldVxK _ => true
  | .cls | .ret | .sys _ | .jp _ | .call _ | .seVxNN _ _ | .sneVxNN _ _ | .seVxVy _ _
  | .ldVxNN _ _ | .addVxNN _ _ | .ldVxVy _ _ | .orVxVy _ _ | .andVxVy _ _ | .xorVxVy _ _
  | .addVxVy _ _ | .subVxVy _ _ | .shrVxVy _ _ | .subnVxVy _ _ | .shlVxVy _ _ | .sneVxVy _ _
  | .ldI _ | .jpV0 _ | .drw _ _ _ | .ldDTVx _ | .ldSTVx _ | .addIVx _ | .ldFVx _ | .ldBVx _
  | .ldMemVx _ | .ldVxMem _ => false

end Sys2Proof.Machine
end

