-- ==== Sys2Proof/Certificates/Slice0/Obligations.lean ====
section
/-! DEFINITION. The statements for the provers. Each docstring names the rules of spec/ it formalises. A PC value is
`(pc + k) mod 2^PC_WIDTH`, the form R9 gives the rules' `mod 2^16` for any PC_WIDTH. -/

open Sys2Proof Sys2Proof.Machine

/-! ## Encoding -/

/-- One word of every family, written out nybble by nybble from R87, decodes to the instruction it
stands for; 00E1 and 0000 are SYS (R83, R86), and two words of R85 are rejected by name. -/
def Obligations.SpecWordsDecode : Prop :=
  decode 0x00E0 = .ok .cls ∧ decode 0x00EE = .ok .ret ∧
  decode 0x00E1 = .ok (.sys 0x0E1) ∧ decode 0x0000 = .ok (.sys 0x000) ∧
  decode 0x5010 = .ok (.seVxVy 0 1) ∧ decode 0x614E = .ok (.ldVxNN 1 0x4E) ∧
  decode 0x8126 = .ok (.shrVxVy 1 2) ∧ decode 0xB500 = .ok (.jpV0 0x500) ∧
  decode 0xD012 = .ok (.drw 0 1 2) ∧ decode 0xE59E = .ok (.skp 5) ∧ decode 0xF155 = .ok (.ldMemVx 1) ∧
  decode 0x5121 = .error (.noPattern 0x5121) ∧ decode 0xF0FF = .error (.noPattern 0xF0FF)

/-- Every well-formed instruction is read back from the two bytes it is encoded as, and what follows
them is left (R80, R87). -/
def Obligations.DecodeOfEncodeIsIdentity : Prop :=
  ∀ (i : Instr) (rest : List Byte), i.wellFormed = true →
    decode (encode i) = .ok i ∧ decodeBytes (encodeBytes i ++ rest) = .ok (i, rest)

/-- No bit of a word is dropped: a word that decodes is the encoding of what it decodes to, and that
instruction is well-formed (R81, R83, R87). -/
def Obligations.EncodeOfDecodeIsIdentity : Prop :=
  ∀ (w : Word) (i : Instr), decode w = .ok i → encode i = w ∧ i.wellFormed = true

/-- The decoder rejects exactly the words R85 lists, and a step that fetches one changes PC, by +2, and
OP alone, with no event and no fault (R85, R132). -/
def Obligations.UnknownWordsRunAsNoOperation : Prop :=
  (∀ w : Word, decode w = .error (.noPattern w) ↔ matchesNothing w) ∧
  ∀ (s : State) (w : Word), s.fault = .none → s.fetch = some w → matchesNothing w →
    ∃ t, step s = .next t ∧ SameBlock { s with pc := pcPlus s 2, op := w } t ∧ t.out = []

/-- A decoded word lies under its row's mask at its row's match, and no row but 0NNN can match it
besides (R83, R88). -/
def Obligations.DecodedWordMatchesOneRow : Prop :=
  ∀ (w : Word) (i : Instr), decode w = .ok i → w &&& opcodeMask i = opcodeMatch i ∧
    ∀ j : Instr, w &&& opcodeMask j = opcodeMatch j →
      opcodeMatch j = opcodeMatch i ∨ (opcodeMatch j = 0x0000 ∧ (i = .cls ∨ i = .ret))

/-! ## The cycle -/

/-- When the bytes at PC decode to an instruction, the step is exec of it on the state whose OP holds
the word and whose output is empty (R100, R103), after which the sampled port values have passed and the
counter is one up (the model's log 3). -/
def Obligations.StepRunsDecodedInstruction : Prop :=
  ∀ (s : State) (i : Instr), s.fault = .none → s.pc + 1 < 4096 →
    decode (s.readByte (BitVec.ofNat 12 s.pc) ++ s.readByte (BitVec.ofNat 12 (s.pc + 1))) = .ok i →
    i.wellFormed = true ∧
    step s =
      (match exec i { s with
          op := s.readByte (BitVec.ofNat 12 s.pc) ++ s.readByte (BitVec.ofNat 12 (s.pc + 1)), out := [] } with
        | .next t => .next { t with inputs := t.inputs.tail, tick := t.tick + 1 }
        | .fault r => .fault r
        | .refused r => .refused r)

/-- The fetch is big-endian and bounded by PC + 1 < 4096; outside, it returns 0x0000 under Substitute,
which decodes as SYS 0x000, and no word under Fault (R52, R56, R102). -/
def Obligations.FetchReadsBigEndianWordOrPolicy : Prop :=
  ∀ s : State,
    (s.pc + 1 < 4096 → ∃ w, s.fetch = some w ∧
      w.toNat = 256 * (s.readByte (BitVec.ofNat 12 s.pc)).toNat +
        (s.readByte (BitVec.ofNat 12 (s.pc + 1))).toNat) ∧
    (4096 ≤ s.pc + 1 → s.params.fetchOob = .substitute →
      s.fetch = some 0x0000 ∧ decode 0x0000 = .ok (.sys 0x000)) ∧
    (4096 ≤ s.pc + 1 → s.params.fetchOob = .fault → s.fetch = none)

/-- Under Substitute a step outside memory is SYS 0x000: the event, OP = 0x0000, PC + 2, nothing else
(R102, R112). -/
def Obligations.OutOfBoundsStepRunsSysZero : Prop :=
  ∀ s : State, s.fault = .none → 4096 ≤ s.pc + 1 → s.params.fetchOob = .substitute →
    ∃ t, step s = .next t ∧ SameBlock { s with pc := pcPlus s 2, op := 0x0000 } t ∧ t.out = [.sysReq 0x000]

/-- Under Fault a step outside memory records FETCH_BOUNDS and leaves OP and everything else (R102,
R103, R222). -/
def Obligations.OutOfBoundsStepRaisesFetchBounds : Prop :=
  ∀ s : State, s.fault = .none → 4096 ≤ s.pc + 1 → s.params.fetchOob = .fault →
    ∃ t, step s = .next t ∧ SameBlock { s with fault := .fetchBounds } t ∧ t.out = []

/-- The fetch writes the word it returned into OP, whatever instruction runs; a fetch that raises leaves
OP (R103). -/
def Obligations.FetchLatchesOpcode : Prop :=
  ∀ s : State, s.fault = .none → ∃ t, step s = .next t ∧
    (∀ w, s.fetch = some w → t.op = w) ∧ (s.fetch = none → t.op = s.op)

/-- While a fault is recorded a step changes nothing and emits nothing, no host operation clears it,
and reset does; clear_change and load still act (R223). -/
def Obligations.FaultIsStickyUntilReset : Prop :=
  ∀ s : State, s.fault ≠ .none →
    (∃ t, step s = .next t ∧ SameBlock s t ∧ t.out = []) ∧
    (∀ bytes, (s.load bytes).fault = s.fault) ∧ s.clearChange.fault = s.fault ∧ s.clearChange.chg = false ∧
    (s.mem.wf = true → ∀ b, (s.load [b]).readByte 0x200 = b) ∧
    (∀ ps, (s.present ps).fault = s.fault) ∧ s.rst.fault = .none

/-- The step is total: every state has a next state (R100). -/
def Obligations.StepIsTotal : Prop :=
  ∀ s : State, ∃ t, step s = .next t

/-- PC after a handler that raises nothing is the one its directive gives: Advance, Skip(1) only for the
six conditional skips, Jump only for four instructions and the key wait (R106, R107). -/
def Obligations.PcFollowsDirectiveClass : Prop :=
  ∀ (i : Instr) (s t : State), s.fault = .none → exec i s = .next t → t.fault = .none →
    match directiveClass i with
    | .advance => t.pc = pcPlus s 2
    | .skip => t.pc = pcPlus s 2 ∨ t.pc = pcPlus s 4
    | .jump => t.pc < 2 ^ s.params.pcWidth
    | .wait => t.pc = pcPlus s 2 ∨ t.pc = pcPlus s 0

/-- The ports are sampled once a step, from what the host lined up first; every step passes those
values, counts itself and keeps the parameters (R41; the model's log 1 and log 3). -/
def Obligations.StepSamplesPortsOnce : Prop :=
  (∀ (s : State) (p : Ports) (rest : List Ports), s.inputs = p :: rest →
    s.keyDown = p.keyDown ∧ s.delayIn = p.delayIn ∧ s.randIn = p.randIn) ∧
  ∀ s : State, ∃ t, step s = .next t ∧
    t.inputs = s.inputs.tail ∧ t.tick = s.tick + 1 ∧ t.params = s.params

/-! ## Control flow -/

/-- SYS emits sys_req(NNN) and advances; nothing else changes (R121). -/
def Obligations.SysEmitsRequestAndAdvances : Prop :=
  ∀ (nnn : Addr) (s : State),
    (nnn ≠ 0x0E0 → nnn ≠ 0x0EE → decode (0x0#4 ++ nnn) = .ok (.sys nnn)) ∧
    ∃ t, exec (.sys nnn) s = .next t ∧ t.out = s.out ++ [.sysReq nnn] ∧ t.pc = pcPlus s 2 ∧
      Frame noReg noByte [.output] s t

/-- RET pops S[SP-1] into PC and keeps the slot; on an empty stack it raises STACK_UNDERFLOW and writes
nothing else (R122). -/
def Obligations.RetPopsOrUnderflows : Prop :=
  decode 0x00EE = .ok .ret ∧ ∀ s : State,
    (s.sp = 0 → exec .ret s = .next { s with fault := .stackUnderflow }) ∧
    ∀ k : Fin 16, s.sp.val = k.val + 1 → ∃ t, exec .ret s = .next t ∧
      t.sp.val = k.val ∧ t.stack = s.stack ∧
      t.pc = s.stack[k.val].toNat % 2 ^ s.params.pcWidth ∧ Frame noReg noByte [.stack] s t

/-- CALL writes PC + 2 into S[SP], raises SP and jumps; on a full stack it raises STACK_OVERFLOW and
writes nothing else (R123). -/
def Obligations.CallPushesOrOverflows : Prop :=
  ∀ (nnn : Addr) (s : State), decode (0x2#4 ++ nnn) = .ok (.call nnn) ∧
    (s.sp = 16 → exec (.call nnn) s = .next { s with fault := .stackOverflow }) ∧
    ∀ k : Fin 16, s.sp.val = k.val → ∃ t, exec (.call nnn) s = .next t ∧
      t.sp.val = k.val + 1 ∧ t.stack[k.val].toNat = pcPlus s 2 % 2 ^ 16 ∧
      (∀ j : Fin 16, j ≠ k → t.stack[j.val] = s.stack[j.val]) ∧
      t.pc = nnn.toNat % 2 ^ s.params.pcWidth ∧ Frame noReg noByte [.stack] s t

/-- JP and JP V0 set PC alone, unchecked; the sum NNN + V[0] is not reduced to 12 bits (R124, R131). -/
def Obligations.JumpsSetPcAlone : Prop :=
  ∀ (nnn : Addr) (s : State),
    decode (0x1#4 ++ nnn) = .ok (.jp nnn) ∧ decode (0xB#4 ++ nnn) = .ok (.jpV0 nnn) ∧
    (∃ t, exec (.jp nnn) s = .next t ∧ t.pc = nnn.toNat % 2 ^ s.params.pcWidth ∧
      Frame noReg noByte [] s t) ∧
    ∃ t, exec (.jpV0 nnn) s = .next t ∧
      t.pc = (nnn.toNat + (s.reg 0).toNat) % 2 ^ s.params.pcWidth ∧ Frame noReg noByte [] s t

/-- SE Vx,NN and SNE Vx,NN move PC by 4 or by 2 and change nothing else (R125, R126). -/
def Obligations.ImmediateSkipsCompare : Prop :=
  ∀ (x : RegSel) (nn : Byte) (s : State),
    decode (0x3#4 ++ x ++ nn) = .ok (.seVxNN x nn) ∧ decode (0x4#4 ++ x ++ nn) = .ok (.sneVxNN x nn) ∧
    (∃ t, exec (.seVxNN x nn) s = .next t ∧
      ((s.reg x).toNat = nn.toNat → t.pc = pcPlus s 4) ∧ ((s.reg x).toNat ≠ nn.toNat → t.pc = pcPlus s 2) ∧
      Frame noReg noByte [] s t) ∧
    ∃ t, exec (.sneVxNN x nn) s = .next t ∧
      ((s.reg x).toNat ≠ nn.toNat → t.pc = pcPlus s 4) ∧ ((s.reg x).toNat = nn.toNat → t.pc = pcPlus s 2) ∧
      Frame noReg noByte [] s t

/-- SE Vx,Vy and SNE Vx,Vy move PC by 4 or by 2 and change nothing else; their N is 0 (R127, R128). -/
def Obligations.RegisterSkipsCompare : Prop :=
  ∀ (x y : RegSel) (s : State),
    decode (0x5#4 ++ x ++ y ++ 0x0#4) = .ok (.seVxVy x y) ∧
    decode (0x9#4 ++ x ++ y ++ 0x0#4) = .ok (.sneVxVy x y) ∧
    (∀ n : Nybble, n ≠ 0 → ∀ i, decode (0x5#4 ++ x ++ y ++ n) ≠ .ok i ∧ decode (0x9#4 ++ x ++ y ++ n) ≠ .ok i) ∧
    (∃ t, exec (.seVxVy x y) s = .next t ∧
      ((s.reg x).toNat = (s.reg y).toNat → t.pc = pcPlus s 4) ∧
      ((s.reg x).toNat ≠ (s.reg y).toNat → t.pc = pcPlus s 2) ∧ Frame noReg noByte [] s t) ∧
    ∃ t, exec (.sneVxVy x y) s = .next t ∧
      ((s.reg x).toNat ≠ (s.reg y).toNat → t.pc = pcPlus s 4) ∧
      ((s.reg x).toNat = (s.reg y).toNat → t.pc = pcPlus s 2) ∧ Frame noReg noByte [] s t

/-- CALL followed by a RET at its target restores PC to the instruction after the call and SP to its
value before it; the slot stays (R129). -/
def Obligations.CallThenReturnRoundTrip : Prop :=
  ∀ (s : State) (nnn : Addr) (k : Fin 16), s.fault = .none → s.fetch = some (0x2#4 ++ nnn) →
    s.sp.val = k.val → 12 ≤ s.params.pcWidth → nnn.toNat + 1 < 4096 →
    s.readByte nnn = 0x00 → s.readByte (nnn + 1) = 0xEE →
    ∃ t u, step s = .next t ∧ step t = .next u ∧
      u.pc = pcPlus s 2 ∧ u.sp = s.sp ∧ u.stack[k.val].toNat = pcPlus s 2

/-! ## The arithmetic/logic unit -/

/-- LD Vx,NN and ADD Vx,NN write V[X] alone; V[F] is written only as V[X] (R141, R142). -/
def Obligations.ImmediateLoadAndAdd : Prop :=
  ∀ (x : RegSel) (nn : Byte) (s : State),
    decode (0x6#4 ++ x ++ nn) = .ok (.ldVxNN x nn) ∧ decode (0x7#4 ++ x ++ nn) = .ok (.addVxNN x nn) ∧
    (∃ t, exec (.ldVxNN x nn) s = .next t ∧ t.reg x = nn ∧ t.pc = pcPlus s 2 ∧
      Frame (· = x) noByte [] s t) ∧
    ∃ t, exec (.addVxNN x nn) s = .next t ∧ (t.reg x).toNat = ((s.reg x).toNat + nn.toNat) % 256 ∧
      t.pc = pcPlus s 2 ∧ Frame (· = x) noByte [] s t

/-- LD, OR, AND and XOR of two registers, bit by bit, write V[X] alone; V[F] is written only as V[X]
(R143, R144, R145, R146). -/
def Obligations.MoveAndBitwiseForms : Prop :=
  ∀ (x y : RegSel) (s : State),
    decode (0x8#4 ++ x ++ y ++ 0x0#4) = .ok (.ldVxVy x y) ∧ decode (0x8#4 ++ x ++ y ++ 0x1#4) = .ok (.orVxVy x y) ∧
    decode (0x8#4 ++ x ++ y ++ 0x2#4) = .ok (.andVxVy x y) ∧ decode (0x8#4 ++ x ++ y ++ 0x3#4) = .ok (.xorVxVy x y) ∧
    (∃ t, exec (.ldVxVy x y) s = .next t ∧ t.reg x = s.reg y ∧ t.pc = pcPlus s 2 ∧
      Frame (· = x) noByte [] s t) ∧
    (∃ t, exec (.orVxVy x y) s = .next t ∧
      (∀ b, (t.reg x).getLsbD b = ((s.reg x).getLsbD b || (s.reg y).getLsbD b)) ∧ t.pc = pcPlus s 2 ∧
      Frame (· = x) noByte [] s t) ∧
    (∃ t, exec (.andVxVy x y) s = .next t ∧
      (∀ b, (t.reg x).getLsbD b = ((s.reg x).getLsbD b && (s.reg y).getLsbD b)) ∧ t.pc = pcPlus s 2 ∧
      Frame (· = x) noByte [] s t) ∧
    ∃ t, exec (.xorVxVy x y) s = .next t ∧
      (∀ b, (t.reg x).getLsbD b = ((s.reg x).getLsbD b != (s.reg y).getLsbD b)) ∧ t.pc = pcPlus s 2 ∧
      Frame (· = x) noByte [] s t

/-- ADD Vx,Vy: V[X] is the sum modulo 256, then V[F] the carry, so with X = F the carry stays (R148). -/
def Obligations.AddRegistersSetsCarry : Prop :=
  ∀ (x y : RegSel) (s : State), decode (0x8#4 ++ x ++ y ++ 0x4#4) = .ok (.addVxVy x y) ∧
    ∃ t, exec (.addVxVy x y) s = .next t ∧
      (t.reg 0xF).toNat = (if (s.reg x).toNat + (s.reg y).toNat > 255 then 1 else 0) ∧
      (x ≠ 0xF → (t.reg x).toNat = ((s.reg x).toNat + (s.reg y).toNat) % 256) ∧
      t.pc = pcPlus s 2 ∧ Frame (fun r => r = x ∨ r = 0xF) noByte [] s t

/-- SUB and SUBN: V[X] is the difference modulo 256, then V[F] = 1 exactly where no borrow occurs, equal
operands included (R149, R151). -/
def Obligations.SubtractionsSetNoBorrow : Prop :=
  ∀ (x y : RegSel) (s : State),
    decode (0x8#4 ++ x ++ y ++ 0x5#4) = .ok (.subVxVy x y) ∧ decode (0x8#4 ++ x ++ y ++ 0x7#4) = .ok (.subnVxVy x y) ∧
    (∃ t, exec (.subVxVy x y) s = .next t ∧
      (t.reg 0xF).toNat = (if (s.reg x).toNat ≥ (s.reg y).toNat then 1 else 0) ∧
      (x ≠ 0xF → (t.reg x).toNat = ((s.reg x).toNat + 256 - (s.reg y).toNat) % 256) ∧
      t.pc = pcPlus s 2 ∧ Frame (fun r => r = x ∨ r = 0xF) noByte [] s t) ∧
    ∃ t, exec (.subnVxVy x y) s = .next t ∧
      (t.reg 0xF).toNat = (if (s.reg y).toNat ≥ (s.reg x).toNat then 1 else 0) ∧
      (x ≠ 0xF → (t.reg x).toNat = ((s.reg y).toNat + 256 - (s.reg x).toNat) % 256) ∧
      t.pc = pcPlus s 2 ∧ Frame (fun r => r = x ∨ r = 0xF) noByte [] s t

/-- SHR and SHL shift V[Y] by one bit into V[X], then V[F] is the bit shifted out (R150, R152). -/
def Obligations.ShiftsMoveVyAndKeepOutBit : Prop :=
  ∀ (x y : RegSel) (s : State),
    decode (0x8#4 ++ x ++ y ++ 0x6#4) = .ok (.shrVxVy x y) ∧ decode (0x8#4 ++ x ++ y ++ 0xE#4) = .ok (.shlVxVy x y) ∧
    (∃ t, exec (.shrVxVy x y) s = .next t ∧ (t.reg 0xF).toNat = (s.reg y).toNat % 2 ∧
      (x ≠ 0xF → (t.reg x).toNat = (s.reg y).toNat / 2) ∧
      t.pc = pcPlus s 2 ∧ Frame (fun r => r = x ∨ r = 0xF) noByte [] s t) ∧
    ∃ t, exec (.shlVxVy x y) s = .next t ∧ (t.reg 0xF).toNat = (s.reg y).toNat / 128 ∧
      (x ≠ 0xF → (t.reg x).toNat = (s.reg y).toNat * 2 % 256) ∧
      t.pc = pcPlus s 2 ∧ Frame (fun r => r = x ∨ r = 0xF) noByte [] s t

/-- After each of the five flag-writing forms, and after a draw that writes V[F], V[F] is 0 or 1
(R24). -/
def Obligations.ImplicitFlagIsZeroOrOne : Prop :=
  ∀ (i : Instr) (s t : State), exec i s = .next t → t.fault = s.fault →
    ((∃ x y, i = .addVxVy x y ∨ i = .subVxVy x y ∨ i = .shrVxVy x y ∨ i = .subnVxVy x y ∨ i = .shlVxVy x y) ∨
      ∃ x y n, i = .drw x y n ∧ (n ≠ 0 ∨ s.params.collision = .anyPixel) ∧ s.fault = .none) →
    t.reg 0xF = 0 ∨ t.reg 0xF = 1

/-! ## The index register and memory -/

/-- LD I,NNN, ADD I,Vx and LD F,Vx write I alone: NNN, the sum modulo 2^16 with V[F] kept, and the glyph
address of the low nybble (R161, R162, R163). -/
def Obligations.IndexRegisterWrites : Prop :=
  ∀ (nnn : Addr) (x : RegSel) (s : State),
    decode (0xA#4 ++ nnn) = .ok (.ldI nnn) ∧ decode (0xF#4 ++ x ++ 0x1E#8) = .ok (.addIVx x) ∧
    decode (0xF#4 ++ x ++ 0x29#8) = .ok (.ldFVx x) ∧
    (∃ t, exec (.ldI nnn) s = .next t ∧ t.i.toNat = nnn.toNat ∧ t.pc = pcPlus s 2 ∧
      Frame noReg noByte [.index] s t) ∧
    (∃ t, exec (.addIVx x) s = .next t ∧ t.i.toNat = (s.i.toNat + (s.reg x).toNat) % 2 ^ 16 ∧
      t.pc = pcPlus s 2 ∧ Frame noReg noByte [.index] s t) ∧
    ∃ t, exec (.ldFVx x) s = .next t ∧
      t.i.toNat = (s.params.fontBase.toNat + s.params.fontGlyphBytes * ((s.reg x).toNat % 16)) % 2 ^ 16 ∧
      t.pc = pcPlus s 2 ∧ Frame noReg noByte [.index] s t

/-- LD B,Vx stores the three decimal digits at I, I + 1, I + 2 and keeps I; where one of them is out of
bounds under Fault it raises MEM_BOUNDS and writes nothing else (R164). -/
def Obligations.BcdStoresThreeDigits : Prop :=
  ∀ (x : RegSel) (s : State), decode (0xF#4 ++ x ++ 0x33#8) = .ok (.ldBVx x) ∧
    (¬ s.accessInside 3 → exec (.ldBVx x) s = .next { s with fault := .memBounds }) ∧
    (s.accessInside 3 → ∃ addrs t, s.dataAddrs 3 = some addrs ∧
      addrs = [s.indexed 0, s.indexed 1, s.indexed 2] ∧ exec (.ldBVx x) s = .next t ∧
      (s.mem.wf = true → (t.readByte (s.indexed 0)).toNat = (s.reg x).toNat / 100 ∧
        (t.readByte (s.indexed 1)).toNat = (s.reg x).toNat / 10 % 10 ∧
        (t.readByte (s.indexed 2)).toNat = (s.reg x).toNat % 10) ∧
      t.pc = pcPlus s 2 ∧ Frame noReg (fun a => a ∈ addrs) [] s t)

/-- LD [I],Vx stores V[0..X] at I + 0 .. I + X and moves I past them; out of bounds under Fault it raises
MEM_BOUNDS and writes nothing else (R165). -/
def Obligations.RegisterDumpStoresV0ToVx : Prop :=
  ∀ (x : RegSel) (s : State), decode (0xF#4 ++ x ++ 0x55#8) = .ok (.ldMemVx x) ∧
    (¬ s.accessInside (x.toNat + 1) → exec (.ldMemVx x) s = .next { s with fault := .memBounds }) ∧
    (s.accessInside (x.toNat + 1) → ∃ addrs t, s.dataAddrs (x.toNat + 1) = some addrs ∧
      addrs.length = x.toNat + 1 ∧ (∀ k, k ≤ x.toNat → addrs[k]? = some (s.indexed k)) ∧
      exec (.ldMemVx x) s = .next t ∧
      (s.mem.wf = true → ∀ r : RegSel, r.toNat ≤ x.toNat → t.readByte (s.indexed r.toNat) = s.reg r) ∧
      t.i.toNat = (s.i.toNat + x.toNat + 1) % 2 ^ 16 ∧
      t.pc = pcPlus s 2 ∧ Frame noReg (fun a => a ∈ addrs) [.index] s t)

/-- LD Vx,[I] loads V[0..X] from I + 0 .. I + X and moves I past them; out of bounds under Fault it
raises MEM_BOUNDS and writes nothing else (R166). -/
def Obligations.RegisterLoadFillsV0ToVx : Prop :=
  ∀ (x : RegSel) (s : State), decode (0xF#4 ++ x ++ 0x65#8) = .ok (.ldVxMem x) ∧
    (¬ s.accessInside (x.toNat + 1) → exec (.ldVxMem x) s = .next { s with fault := .memBounds }) ∧
    (s.accessInside (x.toNat + 1) → ∃ t, exec (.ldVxMem x) s = .next t ∧
      (∀ r : RegSel, r.toNat ≤ x.toNat → t.reg r = s.readByte (s.indexed r.toNat)) ∧
      t.i.toNat = (s.i.toNat + x.toNat + 1) % 2 ^ 16 ∧
      t.pc = pcPlus s 2 ∧ Frame (fun r => r.toNat ≤ x.toNat) noByte [.index] s t)

/-- A dump followed by a load of the same registers from the same base, in any state that still holds
the dumped bytes, restores the registers; I moves by X + 1 in each (R167). -/
def Obligations.DumpThenLoadRestoresRegisters : Prop :=
  ∀ (x : RegSel) (s : State), s.mem.wf = true → s.i.toNat + x.toNat < 4096 →
    ∃ t, exec (.ldMemVx x) s = .next t ∧ t.i.toNat = s.i.toNat + x.toNat + 1 ∧
      ∀ u : State, u.i = s.i → (∀ a, u.readByte a = t.readByte a) →
        ∃ v, exec (.ldVxMem x) u = .next v ∧ v.i.toNat = s.i.toNat + x.toNat + 1 ∧
          ∀ r : RegSel, r.toNat ≤ x.toNat → v.reg r = s.reg r

/-- One concrete case of the coherence of fetch with stores: the two-byte dump F155 over the instruction
right after it. The next fetch is the word just stored, while the dump itself is the word already fetched
(R63, R101, R245). -/
def Obligations.StoredInstructionIsFetchedNext : Prop :=
  ∀ s : State, s.fault = .none → s.mem.wf = true → s.fetch = some 0xF155 → s.i.toNat = s.pc + 2 →
    s.pc + 3 < 4096 → 12 ≤ s.params.pcWidth →
    ∃ t, step s = .next t ∧ t.op = 0xF155 ∧ t.fetch = some (s.reg 0 ++ s.reg 1)

/-! ## The display -/

/-- CLS zeroes every pixel and sets CHG, V[F] kept (R181). -/
def Obligations.ClsClearsDisplay : Prop :=
  decode 0x00E0 = .ok .cls ∧ ∀ s : State, ∃ t, exec .cls s = .next t ∧
    (∀ px py, t.pixel px py = false) ∧ t.chg = true ∧ t.pc = pcPlus s 2 ∧ Frame noReg noByte [.display] s t

/-- DRW combines the sprite into the bitmap by exclusive-or, each axis wrapping by itself, and sets CHG
whatever N is. V[F]: under LastPixel the old value of the last pixel AND its bit, and kept where N = 0;
under AnyPixel 1 exactly where some pixel of the sprite was lit and is hit. Out of bounds under Fault it
raises MEM_BOUNDS and writes nothing else (R182, R183, R185, R186). -/
def Obligations.DrawCombinesSpriteAndReportsCollision : Prop :=
  ∀ (x y : RegSel) (n : Nybble) (s : State), decode (0xD#4 ++ x ++ y ++ n) = .ok (.drw x y n) ∧
    (¬ s.accessInside n.toNat → exec (.drw x y n) s = .next { s with fault := .memBounds }) ∧
    (s.accessInside n.toNat → ∃ t, exec (.drw x y n) s = .next t ∧
      (∀ px py, t.pixel px py =
        (s.pixel px py != spriteBit (s.reg x) (s.reg y) (s.spriteRows n.toNat) px py)) ∧
      (n = 0 → t.fb = s.fb) ∧ t.chg = true ∧ t.pc = pcPlus s 2 ∧ Frame (· = 0xF) noByte [.display] s t ∧
      (s.params.collision = .lastPixel → n = 0 → t.reg 0xF = s.reg 0xF) ∧
      (s.params.collision = .lastPixel → n ≠ 0 → (t.reg 0xF).toNat =
        if s.pixel (Fin.ofNat 64 ((s.reg x).toNat + 7)) (Fin.ofNat 32 ((s.reg y).toNat + n.toNat - 1)) = true ∧
          (s.readByte (s.indexed (n.toNat - 1))).getLsbD 0 = true then 1 else 0) ∧
      (s.params.collision = .anyPixel →
        (t.reg 0xF = 0 ∨ t.reg 0xF = 1) ∧
        (t.reg 0xF = 1 ↔ ∃ r b, r < n.toNat ∧ b < 8 ∧
          s.pixel (Fin.ofNat 64 ((s.reg x).toNat + b)) (Fin.ofNat 32 ((s.reg y).toNat + r)) = true ∧
          (s.readByte (s.indexed r)).getLsbD (7 - b) = true)))

/-- Drawing the same sprite at the same coordinates twice leaves the bitmap as it was (R187). -/
def Obligations.DrawTwiceRestoresDisplay : Prop :=
  ∀ (x y : RegSel) (n : Nybble) (s : State), s.accessInside n.toNat →
    ∃ t, exec (.drw x y n) s = .next t ∧
      ∀ u : State, u.fb = t.fb → u.i = s.i → u.params = s.params → (∀ a, u.readByte a = s.readByte a) →
        u.reg x = s.reg x → u.reg y = s.reg y →
        ∃ v, exec (.drw x y n) u = .next v ∧ v.fb = s.fb ∧ v.chg = true

/-! ## The collaborator-dependent instructions -/

/-- SKP and SKNP skip by the key V[X] mod 16 of the sampled key_down and change nothing else (R201,
R202). -/
def Obligations.KeySkipsReadLowNybble : Prop :=
  ∀ (x : RegSel) (s : State),
    decode (0xE#4 ++ x ++ 0x9E#8) = .ok (.skp x) ∧ decode (0xE#4 ++ x ++ 0xA1#8) = .ok (.sknp x) ∧
    (∃ t, exec (.skp x) s = .next t ∧
      t.pc = (if s.keyDown.getLsbD ((s.reg x).toNat % 16) = true then pcPlus s 4 else pcPlus s 2) ∧
      Frame noReg noByte [] s t) ∧
    ∃ t, exec (.sknp x) s = .next t ∧
      t.pc = (if s.keyDown.getLsbD ((s.reg x).toNat % 16) = true then pcPlus s 2 else pcPlus s 4) ∧
      Frame noReg noByte [] s t

/-- RND writes rand_in AND NN, bit by bit, and LD Vx,DT writes delay_in, into V[X] alone (R203, R204). -/
def Obligations.RandomAndDelayReads : Prop :=
  ∀ (x : RegSel) (nn : Byte) (s : State),
    decode (0xC#4 ++ x ++ nn) = .ok (.rnd x nn) ∧ decode (0xF#4 ++ x ++ 0x07#8) = .ok (.ldVxDT x) ∧
    (∃ t, exec (.rnd x nn) s = .next t ∧
      (∀ b, (t.reg x).getLsbD b = (s.randIn.getLsbD b && nn.getLsbD b)) ∧ t.pc = pcPlus s 2 ∧
      Frame (· = x) noByte [] s t) ∧
    ∃ t, exec (.ldVxDT x) s = .next t ∧ t.reg x = s.delayIn ∧ t.pc = pcPlus s 2 ∧
      Frame (· = x) noByte [] s t

/-- LD Vx,K with no key down jumps to its own address and changes nothing; else it takes the lowest key
down into V[X] alone and advances (R205). -/
def Obligations.KeyWaitRepeatsOrTakesLowestKey : Prop :=
  ∀ (x : RegSel) (s : State), decode (0xF#4 ++ x ++ 0x0A#8) = .ok (.ldVxK x) ∧
    (s.keyDown = 0x0000 → ∃ t, exec (.ldVxK x) s = .next t ∧ t.pc = s.pc % 2 ^ s.params.pcWidth ∧
      (s.pc < 2 ^ s.params.pcWidth → t.pc = s.pc) ∧ Frame noReg noByte [] s t) ∧
    ∀ k : Fin 16, s.keyDown.getLsbD k.val = true →
      (∀ j : Fin 16, j < k → s.keyDown.getLsbD j.val = false) →
      ∃ t, exec (.ldVxK x) s = .next t ∧ (t.reg x).toNat = k.val ∧ t.pc = pcPlus s 2 ∧
        Frame (· = x) noByte [] s t

/-- LD DT,Vx and LD ST,Vx emit V[X] as delay_wr and sound_wr and change nothing else (R206, R207). -/
def Obligations.TimerWritesEmitEvents : Prop :=
  ∀ (x : RegSel) (s : State),
    decode (0xF#4 ++ x ++ 0x15#8) = .ok (.ldDTVx x) ∧ decode (0xF#4 ++ x ++ 0x18#8) = .ok (.ldSTVx x) ∧
    (∃ t, exec (.ldDTVx x) s = .next t ∧ t.out = s.out ++ [.delayWr (s.reg x)] ∧ t.pc = pcPlus s 2 ∧
      Frame noReg noByte [.output] s t) ∧
    ∃ t, exec (.ldSTVx x) s = .next t ∧ t.out = s.out ++ [.soundWr (s.reg x)] ∧ t.pc = pcPlus s 2 ∧
      Frame noReg noByte [.output] s t

/-- What the ports show matters only to the instructions R41 names: any other instruction, run with
other port values, does the same (R41). -/
def Obligations.PortsMatterOnlyToTheirReaders : Prop :=
  ∀ (i : Instr) (s t : State) (ps : List Ports) (n : Nat), readsPort i = false → exec i s = .next t →
    exec i { s with inputs := ps, tick := n } = .next { t with inputs := ps, tick := n }

/-! ## Faults -/

/-- A step that raises changes FAULT and OP alone, and emits nothing: OP takes the fetched word, or is
kept where no word was fetched (R222). -/
def Obligations.FaultEntryIsPrecise : Prop :=
  ∀ s t : State, s.fault = .none → step s = .next t → t.fault ≠ .none →
    SameBlock { s with fault := t.fault, op := t.op } t ∧ t.out = [] ∧
    (∀ w, s.fetch = some w → t.op = w) ∧ (s.fetch = none → t.op = s.op)

/-- The causes of R221 and no other: the code a step records in FAULT names the fetched instruction and
the condition, both ways; PC and I are then kept, and OP holds the word or is kept (R221). -/
def Obligations.FaultCausesAreExact : Prop :=
  ∀ s : State, s.fault = .none → ∃ t, step s = .next t ∧
    (faultStatusCode t.fault = 1 ↔ ∃ w nnn, s.fetch = some w ∧ decode w = .ok (.call nnn) ∧ s.sp.val = 16) ∧
    (faultStatusCode t.fault = 2 ↔ ∃ w, s.fetch = some w ∧ decode w = .ok .ret ∧ s.sp.val = 0) ∧
    (faultStatusCode t.fault = 3 ↔ ∃ w i n k, s.fetch = some w ∧ decode w = .ok i ∧ dataBytes i = some n ∧
      k < n ∧ 4096 ≤ s.i.toNat + k ∧ s.params.dataOob = .fault) ∧
    (faultStatusCode t.fault = 4 ↔ 4096 ≤ s.pc + 1 ∧ s.params.fetchOob = .fault) ∧
    (faultStatusCode t.fault).toNat ≤ 4 ∧
    (faultStatusCode t.fault ≠ 0 → t.pc = s.pc ∧ t.i = s.i ∧
      (∀ w, s.fetch = some w → t.op = w) ∧ (s.fetch = none → t.op = s.op))

/-! ## Whole-machine rules -/

/-- Every step keeps the invariant, from every state that meets it (R27, R29, R43, R123, R221, R222; the
canonical form of memory is the model's, log 9). -/
def Obligations.EveryStepKeepsInvariant : Prop :=
  ∀ s t : State, s.Inv → step s = .next t → t.Inv

/-- The reset state meets the invariant (R35). -/
def Obligations.ResetMeetsInvariant : Prop := State.reset.Inv

/-- Host operations between steps keep the invariant: load, clear_change, present, and rst where PC is
wide enough for the reset address (R44, R240; the model's log 15). -/
def Obligations.HostOperationsKeepInvariant : Prop :=
  ∀ s : State, s.Inv → (∀ bytes, (s.load bytes).Inv) ∧ s.clearChange.Inv ∧ (∀ ps, (s.present ps).Inv) ∧
    (10 ≤ s.params.pcWidth → s.rst.Inv)

/-- Reset, and rst from any state, put every element at its value in R35: memory, registers, I, stack,
SP, FB, CHG, OP and FAULT zero, PC = 0x0200 (R35, R240). That PC is 0x0200 after rst also where PC_WIDTH is
below 10 and the value does not fit PC's width is the model's reading (log 15, DEDUCED), no rule of the
spec. -/
def Obligations.ResetValuesAreThoseOfTheTable : Prop :=
  ∀ z : State, (z = State.reset ∨ ∃ s : State, z = s.rst) →
    (∀ a, z.readByte a = 0x00) ∧ (∀ r, z.reg r = 0x00) ∧ z.i = 0x0000 ∧ z.pc = 0x0200 ∧
    (∀ k : Fin 16, z.stack[k.val] = 0x0000) ∧ z.sp.val = 0 ∧ (∀ px py, z.pixel px py = false) ∧
    z.chg = false ∧ z.op = 0x0000 ∧ faultStatusCode z.fault = 0

/-- No instruction writes a general register but those the table of R22 gives it (R22). -/
def Obligations.OnlyTableWritesRegisters : Prop :=
  ∀ (i : Instr) (s t : State) (r : RegSel), exec i s = .next t → ¬ writesReg s i r → t.reg r = s.reg r

/-- Only FX33 and FX55 write memory, and only ANNN, FX1E, FX29, FX55 and FX65 write I (R51, R26). -/
def Obligations.OnlyNamedInstructionsWriteMemoryAndIndex : Prop :=
  ∀ (i : Instr) (s t : State), exec i s = .next t →
    (writesMemory i = false → ∀ a, t.readByte a = s.readByte a) ∧ (writesIndex i = false → t.i = s.i)

/-- Only CALL and RET touch the stack; only CLS and DRW write the bitmap; CHG is set by them and cleared
by none (R29, R30, R31). -/
def Obligations.OnlyNamedInstructionsWriteStackAndDisplay : Prop :=
  ∀ (i : Instr) (s t : State), exec i s = .next t →
    ((∀ nnn, i ≠ .call nnn) → i ≠ .ret → t.sp = s.sp ∧ t.stack = s.stack) ∧
    (i ≠ .cls → (∀ x y n, i ≠ .drw x y n) → t.fb = s.fb ∧ t.chg = s.chg) ∧
    (s.chg = true → t.chg = true) ∧
    (t.fault = s.fault → s.fault = .none → (i = .cls ∨ ∃ x y n, i = .drw x y n) → t.chg = true)

/-- A step's output is the event R42 gives its instruction, or none (R42, R43). -/
def Obligations.StepOutputIsAtMostOneNamedEvent : Prop :=
  ∀ s : State, ∃ t, step s = .next t ∧ t.out.length ≤ 1 ∧
    (∀ w i, s.fault = .none → s.fetch = some w → decode w = .ok i → t.out = emitted s i) ∧
    ((s.fault ≠ .none ∨ s.fetch = none ∨ ∃ w e, s.fetch = some w ∧ decode w = .error e) → t.out = [])

/-- A run that has ended, as the model defines the end of a run after the example of R248, stays ended, at
the same address (R124, R223, R248). -/
def Obligations.EndedRunStaysEnded : Prop :=
  ∀ (s : State) (halt : Nat), 12 ≤ s.params.pcWidth → s.ended halt →
    ∃ t, step s = .next t ∧ t.ended halt ∧ t.pc = s.pc ∧ ∀ a, t.readByte a = s.readByte a

/-! ## Host operations -/

/-- load copies the bytes to 512 on and drops those past 4095; it changes nothing else, whatever FAULT
holds (R44). -/
def Obligations.LoadCopiesProgramWithTruncation : Prop :=
  ∀ (s : State) (bytes : List Byte), s.mem.wf = true →
    (∀ k, k < bytes.length → 512 + k < 4096 →
      (s.load bytes).readByte (BitVec.ofNat 12 (512 + k)) = bytes.getD k 0) ∧
    (∀ a : Addr, (a.toNat < 512 ∨ 512 + bytes.length ≤ a.toNat) → (s.load bytes).readByte a = s.readByte a) ∧
    s.load bytes = { s with mem := (s.load bytes).mem }

/-- The snapshot shows I, V, PC, S, SP, OP and FAULT; the renderer sees FB and CHG and clears CHG alone;
presenting port values changes those alone (R44, R45). That the values presented are a list lined up for
the coming steps, which replaces the one before, is the model's choice (log 3, DESIGN CHOICE). -/
def Obligations.HostReadsAndClearsAreAsNamed : Prop :=
  ∀ s : State,
    (s.snapshot.i = s.i ∧ s.snapshot.v = s.v ∧ s.snapshot.pc = s.pc ∧ s.snapshot.stack = s.stack ∧
      s.snapshot.sp = s.sp ∧ s.snapshot.op = s.op ∧ s.snapshot.fault = faultStatusCode s.fault) ∧
    s.rendererView = (s.fb, s.chg) ∧ s.clearChange = { s with chg := false } ∧
    (∀ a, s.memRead a = s.readByte a) ∧ ∀ ps, s.present ps = { s with inputs := ps }
end

