-- ==== Sys2Proof/Laws/Decode.lean ====
section
/-! SUPPORT. The fields of an assembled word, a word from its fields, and what the first matching row gives. -/

namespace Sys2Proof

/-! ## Words as numbers -/

theorem toNat_append_add {n m : Nat} (a : BitVec n) (b : BitVec m) :
    (a ++ b).toNat = a.toNat * 2 ^ m + b.toNat := by
  rw [BitVec.toNat_append, ← Nat.shiftLeft_add_eq_or_of_lt b.isLt, Nat.shiftLeft_eq]

theorem toNat_wordOfNybbles (a b c d : Nybble) :
    (wordOfNybbles a b c d).toNat = a.toNat * 4096 + b.toNat * 256 + c.toNat * 16 + d.toNat := by
  have h : (wordOfNybbles a b c d).toNat = (a ++ b ++ c ++ d).toNat := rfl
  rw [h, toNat_append_add, toNat_append_add, toNat_append_add]
  omega

theorem toNat_wordOfAddr (a : Nybble) (nnn : Addr) :
    (wordOfAddr a nnn).toNat = a.toNat * 4096 + nnn.toNat := by
  have h : (wordOfAddr a nnn).toNat = (a ++ nnn).toNat := rfl
  rw [h, toNat_append_add]
  omega

theorem toNat_wordOfImm (a : Nybble) (x : RegSel) (nn : Byte) :
    (wordOfImm a x nn).toNat = a.toNat * 4096 + x.toNat * 256 + nn.toNat := by
  have h : (wordOfImm a x nn).toNat = (a ++ x ++ nn).toNat := rfl
  rw [h, toNat_append_add, toNat_append_add]
  omega

theorem toNat_wordOfBytes (high low : Byte) :
    (wordOfBytes high low).toNat = high.toNat * 256 + low.toNat := by
  have h : (wordOfBytes high low).toNat = (high ++ low).toNat := rfl
  rw [h, toNat_append_add]
  omega

/-! ## The fields of a word as numbers (R81) -/

theorem toNat_fieldN1 (w : Word) : (fieldN1 w).toNat = w.toNat / 4096 := by
  have := w.isLt
  simp [fieldN1, BitVec.extractLsb'_toNat, Nat.shiftRight_eq_div_pow]
  omega

theorem toNat_fieldX (w : Word) : (fieldX w).toNat = w.toNat / 256 % 16 := by
  simp [fieldX, BitVec.extractLsb'_toNat, Nat.shiftRight_eq_div_pow]

theorem toNat_fieldY (w : Word) : (fieldY w).toNat = w.toNat / 16 % 16 := by
  simp [fieldY, BitVec.extractLsb'_toNat, Nat.shiftRight_eq_div_pow]

theorem toNat_fieldN (w : Word) : (fieldN w).toNat = w.toNat % 16 := by
  simp [fieldN, BitVec.extractLsb'_toNat]

theorem toNat_fieldNNN (w : Word) : (fieldNNN w).toNat = w.toNat % 4096 := by
  simp [fieldNNN, BitVec.extractLsb'_toNat]

theorem toNat_fieldNN (w : Word) : (fieldNN w).toNat = w.toNat % 256 := by
  simp [fieldNN, BitVec.extractLsb'_toNat]

theorem toNat_highByte (w : Word) : (highByte w).toNat = w.toNat / 256 := by
  have := w.isLt
  simp [highByte, BitVec.extractLsb'_toNat, Nat.shiftRight_eq_div_pow]
  omega

theorem toNat_lowByte (w : Word) : (lowByte w).toNat = w.toNat % 256 := by
  simp [lowByte, BitVec.extractLsb'_toNat]

/-- The two bytes of a word make it again (R52). -/
@[simp] theorem wordOfBytes_highByte_lowByte (w : Word) : wordOfBytes (highByte w) (lowByte w) = w := by
  apply BitVec.eq_of_toNat_eq
  rw [toNat_wordOfBytes, toNat_highByte, toNat_lowByte]
  omega

/-! ## The fields of an assembled word -/

@[simp] theorem fieldN1_wordOfNybbles (a b c d : Nybble) : fieldN1 (wordOfNybbles a b c d) = a := by
  apply BitVec.eq_of_toNat_eq
  rw [toNat_fieldN1, toNat_wordOfNybbles]
  omega

@[simp] theorem fieldX_wordOfNybbles (a b c d : Nybble) : fieldX (wordOfNybbles a b c d) = b := by
  apply BitVec.eq_of_toNat_eq
  rw [toNat_fieldX, toNat_wordOfNybbles]
  omega

@[simp] theorem fieldY_wordOfNybbles (a b c d : Nybble) : fieldY (wordOfNybbles a b c d) = c := by
  apply BitVec.eq_of_toNat_eq
  rw [toNat_fieldY, toNat_wordOfNybbles]
  omega

@[simp] theorem fieldN_wordOfNybbles (a b c d : Nybble) : fieldN (wordOfNybbles a b c d) = d := by
  apply BitVec.eq_of_toNat_eq
  rw [toNat_fieldN, toNat_wordOfNybbles]
  omega

@[simp] theorem fieldN1_wordOfAddr (a : Nybble) (nnn : Addr) : fieldN1 (wordOfAddr a nnn) = a := by
  apply BitVec.eq_of_toNat_eq
  rw [toNat_fieldN1, toNat_wordOfAddr]
  omega

@[simp] theorem fieldNNN_wordOfAddr (a : Nybble) (nnn : Addr) : fieldNNN (wordOfAddr a nnn) = nnn := by
  apply BitVec.eq_of_toNat_eq
  rw [toNat_fieldNNN, toNat_wordOfAddr]
  omega

@[simp] theorem fieldN1_wordOfImm (a : Nybble) (x : RegSel) (nn : Byte) : fieldN1 (wordOfImm a x nn) = a := by
  apply BitVec.eq_of_toNat_eq
  rw [toNat_fieldN1, toNat_wordOfImm]
  omega

@[simp] theorem fieldX_wordOfImm (a : Nybble) (x : RegSel) (nn : Byte) : fieldX (wordOfImm a x nn) = x := by
  apply BitVec.eq_of_toNat_eq
  rw [toNat_fieldX, toNat_wordOfImm]
  omega

@[simp] theorem fieldNN_wordOfImm (a : Nybble) (x : RegSel) (nn : Byte) : fieldNN (wordOfImm a x nn) = nn := by
  apply BitVec.eq_of_toNat_eq
  rw [toNat_fieldNN, toNat_wordOfImm]
  omega

@[simp] theorem fieldY_wordOfImm (a : Nybble) (x : RegSel) (nn : Byte) :
    fieldY (wordOfImm a x nn) = nn.extractLsb' 4 4 := by
  apply BitVec.eq_of_toNat_eq
  rw [toNat_fieldY, toNat_wordOfImm]
  simp [Nat.shiftRight_eq_div_pow]
  omega

@[simp] theorem fieldN_wordOfImm (a : Nybble) (x : RegSel) (nn : Byte) :
    fieldN (wordOfImm a x nn) = nn.extractLsb' 0 4 := by
  apply BitVec.eq_of_toNat_eq
  rw [toNat_fieldN, toNat_wordOfImm]
  simp
  omega

/-! ## A word from its fields -/

/-- Every word is its four nybbles (R81). -/
theorem wordOfNybbles_fields (w : Word) : wordOfNybbles (fieldN1 w) (fieldX w) (fieldY w) (fieldN w) = w := by
  apply BitVec.eq_of_toNat_eq
  have := w.isLt
  rw [toNat_wordOfNybbles, toNat_fieldN1, toNat_fieldX, toNat_fieldY, toNat_fieldN]
  omega

/-- Every word is its class and its address. -/
theorem wordOfAddr_fields (w : Word) : wordOfAddr (fieldN1 w) (fieldNNN w) = w := by
  apply BitVec.eq_of_toNat_eq
  have := w.isLt
  rw [toNat_wordOfAddr, toNat_fieldN1, toNat_fieldNNN]
  omega

/-- Every word is its class, its X and its immediate. -/
theorem wordOfImm_fields (w : Word) : wordOfImm (fieldN1 w) (fieldX w) (fieldNN w) = w := by
  apply BitVec.eq_of_toNat_eq
  have := w.isLt
  rw [toNat_wordOfImm, toNat_fieldN1, toNat_fieldX, toNat_fieldNN]
  omega

/-- NN is the last two nybbles. -/
theorem fieldNN_eq (w : Word) : fieldNN w = fieldY w ++ fieldN w := by
  apply BitVec.eq_of_toNat_eq
  have h : (fieldY w ++ fieldN w).toNat = _ := toNat_append_add (fieldY w) (fieldN w)
  rw [h, toNat_fieldNN, toNat_fieldY, toNat_fieldN]
  omega

/-! ## The first matching row -/

/-- What decoding over any rows gives: some row of them that the word matches. -/
theorem decodeWith_ok {rows : List (Pattern × (Word → Instr))} {w : Word} {i : Instr}
    (h : decodeWith rows w = .ok i) : ∃ row ∈ rows, matchesPattern row.1 w = true ∧ row.2 w = i := by
  induction rows with
  | nil => cases h
  | cons row rest ih =>
    rw [decodeWith] at h
    split at h
    · exact ⟨row, List.mem_cons_self, by assumption, by injection h⟩
    · obtain ⟨r, hr, hm⟩ := ih h
      exact ⟨r, List.mem_cons_of_mem _ hr, hm⟩

/-- A map rejects a word exactly where no row of it matches, and then names the word. -/
theorem decodeWith_error_iff {rows : List (Pattern × (Word → Instr))} {w : Word} {e : DecodeError} :
    decodeWith rows w = .error e ↔ .noPattern w = e ∧ ∀ row ∈ rows, matchesPattern row.1 w = false := by
  induction rows with
  | nil => simp [decodeWith]
  | cons row rest ih =>
    rw [decodeWith]
    cases hm : matchesPattern row.1 w <;> simp [hm, ih]

end Sys2Proof
end

