-- ==== Sys2Proof/Laws/State.lean ====
section
/-! SUPPORT. One lemma per field per named update of State: each is true by unfolding, and no later proof
unfolds a record update. -/

namespace Sys2Proof.Machine

/-! ## setReg -/

@[simp] theorem State.setReg_mem (s : State) (r : RegSel) (b : Byte) : (s.setReg r b).mem = s.mem := rfl
@[simp] theorem State.setReg_i (s : State) (r : RegSel) (b : Byte) : (s.setReg r b).i = s.i := rfl
@[simp] theorem State.setReg_pc (s : State) (r : RegSel) (b : Byte) : (s.setReg r b).pc = s.pc := rfl
@[simp] theorem State.setReg_stack (s : State) (r : RegSel) (b : Byte) : (s.setReg r b).stack = s.stack := rfl
@[simp] theorem State.setReg_sp (s : State) (r : RegSel) (b : Byte) : (s.setReg r b).sp = s.sp := rfl
@[simp] theorem State.setReg_fb (s : State) (r : RegSel) (b : Byte) : (s.setReg r b).fb = s.fb := rfl
@[simp] theorem State.setReg_chg (s : State) (r : RegSel) (b : Byte) : (s.setReg r b).chg = s.chg := rfl
@[simp] theorem State.setReg_op (s : State) (r : RegSel) (b : Byte) : (s.setReg r b).op = s.op := rfl
@[simp] theorem State.setReg_fault (s : State) (r : RegSel) (b : Byte) : (s.setReg r b).fault = s.fault := rfl
@[simp] theorem State.setReg_params (s : State) (r : RegSel) (b : Byte) : (s.setReg r b).params = s.params := rfl
@[simp] theorem State.setReg_inputs (s : State) (r : RegSel) (b : Byte) : (s.setReg r b).inputs = s.inputs := rfl
@[simp] theorem State.setReg_tick (s : State) (r : RegSel) (b : Byte) : (s.setReg r b).tick = s.tick := rfl
@[simp] theorem State.setReg_out (s : State) (r : RegSel) (b : Byte) : (s.setReg r b).out = s.out := rfl

/-! ## setIndex -/

@[simp] theorem State.setIndex_mem (s : State) (w : Word) : (s.setIndex w).mem = s.mem := rfl
@[simp] theorem State.setIndex_v (s : State) (w : Word) : (s.setIndex w).v = s.v := rfl
@[simp] theorem State.setIndex_i (s : State) (w : Word) : (s.setIndex w).i = w := rfl
@[simp] theorem State.setIndex_pc (s : State) (w : Word) : (s.setIndex w).pc = s.pc := rfl
@[simp] theorem State.setIndex_stack (s : State) (w : Word) : (s.setIndex w).stack = s.stack := rfl
@[simp] theorem State.setIndex_sp (s : State) (w : Word) : (s.setIndex w).sp = s.sp := rfl
@[simp] theorem State.setIndex_fb (s : State) (w : Word) : (s.setIndex w).fb = s.fb := rfl
@[simp] theorem State.setIndex_chg (s : State) (w : Word) : (s.setIndex w).chg = s.chg := rfl
@[simp] theorem State.setIndex_op (s : State) (w : Word) : (s.setIndex w).op = s.op := rfl
@[simp] theorem State.setIndex_fault (s : State) (w : Word) : (s.setIndex w).fault = s.fault := rfl
@[simp] theorem State.setIndex_params (s : State) (w : Word) : (s.setIndex w).params = s.params := rfl
@[simp] theorem State.setIndex_inputs (s : State) (w : Word) : (s.setIndex w).inputs = s.inputs := rfl
@[simp] theorem State.setIndex_tick (s : State) (w : Word) : (s.setIndex w).tick = s.tick := rfl
@[simp] theorem State.setIndex_out (s : State) (w : Word) : (s.setIndex w).out = s.out := rfl

/-! ## writeByte -/

@[simp] theorem State.writeByte_mem (s : State) (a : Addr) (b : Byte) : (s.writeByte a b).mem = insertByte a.toNat b s.mem := rfl
@[simp] theorem State.writeByte_v (s : State) (a : Addr) (b : Byte) : (s.writeByte a b).v = s.v := rfl
@[simp] theorem State.writeByte_i (s : State) (a : Addr) (b : Byte) : (s.writeByte a b).i = s.i := rfl
@[simp] theorem State.writeByte_pc (s : State) (a : Addr) (b : Byte) : (s.writeByte a b).pc = s.pc := rfl
@[simp] theorem State.writeByte_stack (s : State) (a : Addr) (b : Byte) : (s.writeByte a b).stack = s.stack := rfl
@[simp] theorem State.writeByte_sp (s : State) (a : Addr) (b : Byte) : (s.writeByte a b).sp = s.sp := rfl
@[simp] theorem State.writeByte_fb (s : State) (a : Addr) (b : Byte) : (s.writeByte a b).fb = s.fb := rfl
@[simp] theorem State.writeByte_chg (s : State) (a : Addr) (b : Byte) : (s.writeByte a b).chg = s.chg := rfl
@[simp] theorem State.writeByte_op (s : State) (a : Addr) (b : Byte) : (s.writeByte a b).op = s.op := rfl
@[simp] theorem State.writeByte_fault (s : State) (a : Addr) (b : Byte) : (s.writeByte a b).fault = s.fault := rfl
@[simp] theorem State.writeByte_params (s : State) (a : Addr) (b : Byte) : (s.writeByte a b).params = s.params := rfl
@[simp] theorem State.writeByte_inputs (s : State) (a : Addr) (b : Byte) : (s.writeByte a b).inputs = s.inputs := rfl
@[simp] theorem State.writeByte_tick (s : State) (a : Addr) (b : Byte) : (s.writeByte a b).tick = s.tick := rfl
@[simp] theorem State.writeByte_out (s : State) (a : Addr) (b : Byte) : (s.writeByte a b).out = s.out := rfl

/-! ## setRegAndFlag -/

@[simp] theorem State.setRegAndFlag_mem (s : State) (x : RegSel) (b : Byte) (c : Bool) : (s.setRegAndFlag x b c).mem = s.mem := rfl
@[simp] theorem State.setRegAndFlag_i (s : State) (x : RegSel) (b : Byte) (c : Bool) : (s.setRegAndFlag x b c).i = s.i := rfl
@[simp] theorem State.setRegAndFlag_pc (s : State) (x : RegSel) (b : Byte) (c : Bool) : (s.setRegAndFlag x b c).pc = s.pc := rfl
@[simp] theorem State.setRegAndFlag_stack (s : State) (x : RegSel) (b : Byte) (c : Bool) : (s.setRegAndFlag x b c).stack = s.stack := rfl
@[simp] theorem State.setRegAndFlag_sp (s : State) (x : RegSel) (b : Byte) (c : Bool) : (s.setRegAndFlag x b c).sp = s.sp := rfl
@[simp] theorem State.setRegAndFlag_fb (s : State) (x : RegSel) (b : Byte) (c : Bool) : (s.setRegAndFlag x b c).fb = s.fb := rfl
@[simp] theorem State.setRegAndFlag_chg (s : State) (x : RegSel) (b : Byte) (c : Bool) : (s.setRegAndFlag x b c).chg = s.chg := rfl
@[simp] theorem State.setRegAndFlag_op (s : State) (x : RegSel) (b : Byte) (c : Bool) : (s.setRegAndFlag x b c).op = s.op := rfl
@[simp] theorem State.setRegAndFlag_fault (s : State) (x : RegSel) (b : Byte) (c : Bool) : (s.setRegAndFlag x b c).fault = s.fault := rfl
@[simp] theorem State.setRegAndFlag_params (s : State) (x : RegSel) (b : Byte) (c : Bool) : (s.setRegAndFlag x b c).params = s.params := rfl
@[simp] theorem State.setRegAndFlag_inputs (s : State) (x : RegSel) (b : Byte) (c : Bool) : (s.setRegAndFlag x b c).inputs = s.inputs := rfl
@[simp] theorem State.setRegAndFlag_tick (s : State) (x : RegSel) (b : Byte) (c : Bool) : (s.setRegAndFlag x b c).tick = s.tick := rfl
@[simp] theorem State.setRegAndFlag_out (s : State) (x : RegSel) (b : Byte) (c : Bool) : (s.setRegAndFlag x b c).out = s.out := rfl

/-! ## setPc -/

@[simp] theorem State.setPc_mem (s : State) (p : Nat) : (s.setPc p).mem = s.mem := rfl
@[simp] theorem State.setPc_v (s : State) (p : Nat) : (s.setPc p).v = s.v := rfl
@[simp] theorem State.setPc_i (s : State) (p : Nat) : (s.setPc p).i = s.i := rfl
@[simp] theorem State.setPc_pc (s : State) (p : Nat) : (s.setPc p).pc = p := rfl
@[simp] theorem State.setPc_stack (s : State) (p : Nat) : (s.setPc p).stack = s.stack := rfl
@[simp] theorem State.setPc_sp (s : State) (p : Nat) : (s.setPc p).sp = s.sp := rfl
@[simp] theorem State.setPc_fb (s : State) (p : Nat) : (s.setPc p).fb = s.fb := rfl
@[simp] theorem State.setPc_chg (s : State) (p : Nat) : (s.setPc p).chg = s.chg := rfl
@[simp] theorem State.setPc_op (s : State) (p : Nat) : (s.setPc p).op = s.op := rfl
@[simp] theorem State.setPc_fault (s : State) (p : Nat) : (s.setPc p).fault = s.fault := rfl
@[simp] theorem State.setPc_params (s : State) (p : Nat) : (s.setPc p).params = s.params := rfl
@[simp] theorem State.setPc_inputs (s : State) (p : Nat) : (s.setPc p).inputs = s.inputs := rfl
@[simp] theorem State.setPc_tick (s : State) (p : Nat) : (s.setPc p).tick = s.tick := rfl
@[simp] theorem State.setPc_out (s : State) (p : Nat) : (s.setPc p).out = s.out := rfl

/-! ## setFault -/

@[simp] theorem State.setFault_mem (s : State) (c : FaultCode) : (s.setFault c).mem = s.mem := rfl
@[simp] theorem State.setFault_v (s : State) (c : FaultCode) : (s.setFault c).v = s.v := rfl
@[simp] theorem State.setFault_i (s : State) (c : FaultCode) : (s.setFault c).i = s.i := rfl
@[simp] theorem State.setFault_pc (s : State) (c : FaultCode) : (s.setFault c).pc = s.pc := rfl
@[simp] theorem State.setFault_stack (s : State) (c : FaultCode) : (s.setFault c).stack = s.stack := rfl
@[simp] theorem State.setFault_sp (s : State) (c : FaultCode) : (s.setFault c).sp = s.sp := rfl
@[simp] theorem State.setFault_fb (s : State) (c : FaultCode) : (s.setFault c).fb = s.fb := rfl
@[simp] theorem State.setFault_chg (s : State) (c : FaultCode) : (s.setFault c).chg = s.chg := rfl
@[simp] theorem State.setFault_op (s : State) (c : FaultCode) : (s.setFault c).op = s.op := rfl
@[simp] theorem State.setFault_fault (s : State) (c : FaultCode) : (s.setFault c).fault = c := rfl
@[simp] theorem State.setFault_params (s : State) (c : FaultCode) : (s.setFault c).params = s.params := rfl
@[simp] theorem State.setFault_inputs (s : State) (c : FaultCode) : (s.setFault c).inputs = s.inputs := rfl
@[simp] theorem State.setFault_tick (s : State) (c : FaultCode) : (s.setFault c).tick = s.tick := rfl
@[simp] theorem State.setFault_out (s : State) (c : FaultCode) : (s.setFault c).out = s.out := rfl

/-! ## setStack -/

@[simp] theorem State.setStack_mem (s : State) (k : Vector Word 16) (n : Fin 17) : (s.setStack k n).mem = s.mem := rfl
@[simp] theorem State.setStack_v (s : State) (k : Vector Word 16) (n : Fin 17) : (s.setStack k n).v = s.v := rfl
@[simp] theorem State.setStack_i (s : State) (k : Vector Word 16) (n : Fin 17) : (s.setStack k n).i = s.i := rfl
@[simp] theorem State.setStack_pc (s : State) (k : Vector Word 16) (n : Fin 17) : (s.setStack k n).pc = s.pc := rfl
@[simp] theorem State.setStack_stack (s : State) (k : Vector Word 16) (n : Fin 17) : (s.setStack k n).stack = k := rfl
@[simp] theorem State.setStack_sp (s : State) (k : Vector Word 16) (n : Fin 17) : (s.setStack k n).sp = n := rfl
@[simp] theorem State.setStack_fb (s : State) (k : Vector Word 16) (n : Fin 17) : (s.setStack k n).fb = s.fb := rfl
@[simp] theorem State.setStack_chg (s : State) (k : Vector Word 16) (n : Fin 17) : (s.setStack k n).chg = s.chg := rfl
@[simp] theorem State.setStack_op (s : State) (k : Vector Word 16) (n : Fin 17) : (s.setStack k n).op = s.op := rfl
@[simp] theorem State.setStack_fault (s : State) (k : Vector Word 16) (n : Fin 17) : (s.setStack k n).fault = s.fault := rfl
@[simp] theorem State.setStack_params (s : State) (k : Vector Word 16) (n : Fin 17) : (s.setStack k n).params = s.params := rfl
@[simp] theorem State.setStack_inputs (s : State) (k : Vector Word 16) (n : Fin 17) : (s.setStack k n).inputs = s.inputs := rfl
@[simp] theorem State.setStack_tick (s : State) (k : Vector Word 16) (n : Fin 17) : (s.setStack k n).tick = s.tick := rfl
@[simp] theorem State.setStack_out (s : State) (k : Vector Word 16) (n : Fin 17) : (s.setStack k n).out = s.out := rfl

/-! ## setDisplay -/

@[simp] theorem State.setDisplay_mem (s : State) (d : Display) : (s.setDisplay d).mem = s.mem := rfl
@[simp] theorem State.setDisplay_v (s : State) (d : Display) : (s.setDisplay d).v = s.v := rfl
@[simp] theorem State.setDisplay_i (s : State) (d : Display) : (s.setDisplay d).i = s.i := rfl
@[simp] theorem State.setDisplay_pc (s : State) (d : Display) : (s.setDisplay d).pc = s.pc := rfl
@[simp] theorem State.setDisplay_stack (s : State) (d : Display) : (s.setDisplay d).stack = s.stack := rfl
@[simp] theorem State.setDisplay_sp (s : State) (d : Display) : (s.setDisplay d).sp = s.sp := rfl
@[simp] theorem State.setDisplay_fb (s : State) (d : Display) : (s.setDisplay d).fb = d := rfl
@[simp] theorem State.setDisplay_chg (s : State) (d : Display) : (s.setDisplay d).chg = true := rfl
@[simp] theorem State.setDisplay_op (s : State) (d : Display) : (s.setDisplay d).op = s.op := rfl
@[simp] theorem State.setDisplay_fault (s : State) (d : Display) : (s.setDisplay d).fault = s.fault := rfl
@[simp] theorem State.setDisplay_params (s : State) (d : Display) : (s.setDisplay d).params = s.params := rfl
@[simp] theorem State.setDisplay_inputs (s : State) (d : Display) : (s.setDisplay d).inputs = s.inputs := rfl
@[simp] theorem State.setDisplay_tick (s : State) (d : Display) : (s.setDisplay d).tick = s.tick := rfl
@[simp] theorem State.setDisplay_out (s : State) (d : Display) : (s.setDisplay d).out = s.out := rfl

/-! ## emit -/

@[simp] theorem State.emit_mem (s : State) (e : Event) : (s.emit e).mem = s.mem := rfl
@[simp] theorem State.emit_v (s : State) (e : Event) : (s.emit e).v = s.v := rfl
@[simp] theorem State.emit_i (s : State) (e : Event) : (s.emit e).i = s.i := rfl
@[simp] theorem State.emit_pc (s : State) (e : Event) : (s.emit e).pc = s.pc := rfl
@[simp] theorem State.emit_stack (s : State) (e : Event) : (s.emit e).stack = s.stack := rfl
@[simp] theorem State.emit_sp (s : State) (e : Event) : (s.emit e).sp = s.sp := rfl
@[simp] theorem State.emit_fb (s : State) (e : Event) : (s.emit e).fb = s.fb := rfl
@[simp] theorem State.emit_chg (s : State) (e : Event) : (s.emit e).chg = s.chg := rfl
@[simp] theorem State.emit_op (s : State) (e : Event) : (s.emit e).op = s.op := rfl
@[simp] theorem State.emit_fault (s : State) (e : Event) : (s.emit e).fault = s.fault := rfl
@[simp] theorem State.emit_params (s : State) (e : Event) : (s.emit e).params = s.params := rfl
@[simp] theorem State.emit_inputs (s : State) (e : Event) : (s.emit e).inputs = s.inputs := rfl
@[simp] theorem State.emit_tick (s : State) (e : Event) : (s.emit e).tick = s.tick := rfl
@[simp] theorem State.emit_out (s : State) (e : Event) : (s.emit e).out = s.out ++ [e] := rfl

/-! ## clearOutput -/

@[simp] theorem State.clearOutput_mem (s : State) : s.clearOutput.mem = s.mem := rfl
@[simp] theorem State.clearOutput_v (s : State) : s.clearOutput.v = s.v := rfl
@[simp] theorem State.clearOutput_i (s : State) : s.clearOutput.i = s.i := rfl
@[simp] theorem State.clearOutput_pc (s : State) : s.clearOutput.pc = s.pc := rfl
@[simp] theorem State.clearOutput_stack (s : State) : s.clearOutput.stack = s.stack := rfl
@[simp] theorem State.clearOutput_sp (s : State) : s.clearOutput.sp = s.sp := rfl
@[simp] theorem State.clearOutput_fb (s : State) : s.clearOutput.fb = s.fb := rfl
@[simp] theorem State.clearOutput_chg (s : State) : s.clearOutput.chg = s.chg := rfl
@[simp] theorem State.clearOutput_op (s : State) : s.clearOutput.op = s.op := rfl
@[simp] theorem State.clearOutput_fault (s : State) : s.clearOutput.fault = s.fault := rfl
@[simp] theorem State.clearOutput_params (s : State) : s.clearOutput.params = s.params := rfl
@[simp] theorem State.clearOutput_inputs (s : State) : s.clearOutput.inputs = s.inputs := rfl
@[simp] theorem State.clearOutput_tick (s : State) : s.clearOutput.tick = s.tick := rfl
@[simp] theorem State.clearOutput_out (s : State) : s.clearOutput.out = [] := rfl

/-! ## latchOpcode -/

@[simp] theorem State.latchOpcode_mem (s : State) (w : Word) : (s.latchOpcode w).mem = s.mem := rfl
@[simp] theorem State.latchOpcode_v (s : State) (w : Word) : (s.latchOpcode w).v = s.v := rfl
@[simp] theorem State.latchOpcode_i (s : State) (w : Word) : (s.latchOpcode w).i = s.i := rfl
@[simp] theorem State.latchOpcode_pc (s : State) (w : Word) : (s.latchOpcode w).pc = s.pc := rfl
@[simp] theorem State.latchOpcode_stack (s : State) (w : Word) : (s.latchOpcode w).stack = s.stack := rfl
@[simp] theorem State.latchOpcode_sp (s : State) (w : Word) : (s.latchOpcode w).sp = s.sp := rfl
@[simp] theorem State.latchOpcode_fb (s : State) (w : Word) : (s.latchOpcode w).fb = s.fb := rfl
@[simp] theorem State.latchOpcode_chg (s : State) (w : Word) : (s.latchOpcode w).chg = s.chg := rfl
@[simp] theorem State.latchOpcode_op (s : State) (w : Word) : (s.latchOpcode w).op = w := rfl
@[simp] theorem State.latchOpcode_fault (s : State) (w : Word) : (s.latchOpcode w).fault = s.fault := rfl
@[simp] theorem State.latchOpcode_params (s : State) (w : Word) : (s.latchOpcode w).params = s.params := rfl
@[simp] theorem State.latchOpcode_inputs (s : State) (w : Word) : (s.latchOpcode w).inputs = s.inputs := rfl
@[simp] theorem State.latchOpcode_tick (s : State) (w : Word) : (s.latchOpcode w).tick = s.tick := rfl
@[simp] theorem State.latchOpcode_out (s : State) (w : Word) : (s.latchOpcode w).out = s.out := rfl

/-! ## passInputs -/

@[simp] theorem State.passInputs_mem (s : State) : s.passInputs.mem = s.mem := rfl
@[simp] theorem State.passInputs_v (s : State) : s.passInputs.v = s.v := rfl
@[simp] theorem State.passInputs_i (s : State) : s.passInputs.i = s.i := rfl
@[simp] theorem State.passInputs_pc (s : State) : s.passInputs.pc = s.pc := rfl
@[simp] theorem State.passInputs_stack (s : State) : s.passInputs.stack = s.stack := rfl
@[simp] theorem State.passInputs_sp (s : State) : s.passInputs.sp = s.sp := rfl
@[simp] theorem State.passInputs_fb (s : State) : s.passInputs.fb = s.fb := rfl
@[simp] theorem State.passInputs_chg (s : State) : s.passInputs.chg = s.chg := rfl
@[simp] theorem State.passInputs_op (s : State) : s.passInputs.op = s.op := rfl
@[simp] theorem State.passInputs_fault (s : State) : s.passInputs.fault = s.fault := rfl
@[simp] theorem State.passInputs_params (s : State) : s.passInputs.params = s.params := rfl
@[simp] theorem State.passInputs_inputs (s : State) : s.passInputs.inputs = s.inputs.tail := rfl
@[simp] theorem State.passInputs_tick (s : State) : s.passInputs.tick = s.tick + 1 := rfl
@[simp] theorem State.passInputs_out (s : State) : s.passInputs.out = s.out := rfl

/-! ## clearChange -/

@[simp] theorem State.clearChange_mem (s : State) : s.clearChange.mem = s.mem := rfl
@[simp] theorem State.clearChange_v (s : State) : s.clearChange.v = s.v := rfl
@[simp] theorem State.clearChange_i (s : State) : s.clearChange.i = s.i := rfl
@[simp] theorem State.clearChange_pc (s : State) : s.clearChange.pc = s.pc := rfl
@[simp] theorem State.clearChange_stack (s : State) : s.clearChange.stack = s.stack := rfl
@[simp] theorem State.clearChange_sp (s : State) : s.clearChange.sp = s.sp := rfl
@[simp] theorem State.clearChange_fb (s : State) : s.clearChange.fb = s.fb := rfl
@[simp] theorem State.clearChange_chg (s : State) : s.clearChange.chg = false := rfl
@[simp] theorem State.clearChange_op (s : State) : s.clearChange.op = s.op := rfl
@[simp] theorem State.clearChange_fault (s : State) : s.clearChange.fault = s.fault := rfl
@[simp] theorem State.clearChange_params (s : State) : s.clearChange.params = s.params := rfl
@[simp] theorem State.clearChange_inputs (s : State) : s.clearChange.inputs = s.inputs := rfl
@[simp] theorem State.clearChange_tick (s : State) : s.clearChange.tick = s.tick := rfl
@[simp] theorem State.clearChange_out (s : State) : s.clearChange.out = s.out := rfl

/-! ## present -/

@[simp] theorem State.present_mem (s : State) (ps : List Ports) : (s.present ps).mem = s.mem := rfl
@[simp] theorem State.present_v (s : State) (ps : List Ports) : (s.present ps).v = s.v := rfl
@[simp] theorem State.present_i (s : State) (ps : List Ports) : (s.present ps).i = s.i := rfl
@[simp] theorem State.present_pc (s : State) (ps : List Ports) : (s.present ps).pc = s.pc := rfl
@[simp] theorem State.present_stack (s : State) (ps : List Ports) : (s.present ps).stack = s.stack := rfl
@[simp] theorem State.present_sp (s : State) (ps : List Ports) : (s.present ps).sp = s.sp := rfl
@[simp] theorem State.present_fb (s : State) (ps : List Ports) : (s.present ps).fb = s.fb := rfl
@[simp] theorem State.present_chg (s : State) (ps : List Ports) : (s.present ps).chg = s.chg := rfl
@[simp] theorem State.present_op (s : State) (ps : List Ports) : (s.present ps).op = s.op := rfl
@[simp] theorem State.present_fault (s : State) (ps : List Ports) : (s.present ps).fault = s.fault := rfl
@[simp] theorem State.present_params (s : State) (ps : List Ports) : (s.present ps).params = s.params := rfl
@[simp] theorem State.present_inputs (s : State) (ps : List Ports) : (s.present ps).inputs = ps := rfl
@[simp] theorem State.present_tick (s : State) (ps : List Ports) : (s.present ps).tick = s.tick := rfl
@[simp] theorem State.present_out (s : State) (ps : List Ports) : (s.present ps).out = s.out := rfl

/-! ## writeBytes, which keeps every field but `mem` -/

@[simp] theorem State.writeBytes_v (s : State) (l : List (Addr × Byte)) : (s.writeBytes l).v = s.v := by
  induction l generalizing s with
  | nil => rfl
  | cons _ _ ih => simp [State.writeBytes, ih]

@[simp] theorem State.writeBytes_i (s : State) (l : List (Addr × Byte)) : (s.writeBytes l).i = s.i := by
  induction l generalizing s with
  | nil => rfl
  | cons _ _ ih => simp [State.writeBytes, ih]

@[simp] theorem State.writeBytes_pc (s : State) (l : List (Addr × Byte)) : (s.writeBytes l).pc = s.pc := by
  induction l generalizing s with
  | nil => rfl
  | cons _ _ ih => simp [State.writeBytes, ih]

@[simp] theorem State.writeBytes_stack (s : State) (l : List (Addr × Byte)) : (s.writeBytes l).stack = s.stack := by
  induction l generalizing s with
  | nil => rfl
  | cons _ _ ih => simp [State.writeBytes, ih]

@[simp] theorem State.writeBytes_sp (s : State) (l : List (Addr × Byte)) : (s.writeBytes l).sp = s.sp := by
  induction l generalizing s with
  | nil => rfl
  | cons _ _ ih => simp [State.writeBytes, ih]

@[simp] theorem State.writeBytes_fb (s : State) (l : List (Addr × Byte)) : (s.writeBytes l).fb = s.fb := by
  induction l generalizing s with
  | nil => rfl
  | cons _ _ ih => simp [State.writeBytes, ih]

@[simp] theorem State.writeBytes_chg (s : State) (l : List (Addr × Byte)) : (s.writeBytes l).chg = s.chg := by
  induction l generalizing s with
  | nil => rfl
  | cons _ _ ih => simp [State.writeBytes, ih]

@[simp] theorem State.writeBytes_op (s : State) (l : List (Addr × Byte)) : (s.writeBytes l).op = s.op := by
  induction l generalizing s with
  | nil => rfl
  | cons _ _ ih => simp [State.writeBytes, ih]

@[simp] theorem State.writeBytes_fault (s : State) (l : List (Addr × Byte)) : (s.writeBytes l).fault = s.fault := by
  induction l generalizing s with
  | nil => rfl
  | cons _ _ ih => simp [State.writeBytes, ih]

@[simp] theorem State.writeBytes_params (s : State) (l : List (Addr × Byte)) : (s.writeBytes l).params = s.params := by
  induction l generalizing s with
  | nil => rfl
  | cons _ _ ih => simp [State.writeBytes, ih]

@[simp] theorem State.writeBytes_inputs (s : State) (l : List (Addr × Byte)) : (s.writeBytes l).inputs = s.inputs := by
  induction l generalizing s with
  | nil => rfl
  | cons _ _ ih => simp [State.writeBytes, ih]

@[simp] theorem State.writeBytes_tick (s : State) (l : List (Addr × Byte)) : (s.writeBytes l).tick = s.tick := by
  induction l generalizing s with
  | nil => rfl
  | cons _ _ ih => simp [State.writeBytes, ih]

@[simp] theorem State.writeBytes_out (s : State) (l : List (Addr × Byte)) : (s.writeBytes l).out = s.out := by
  induction l generalizing s with
  | nil => rfl
  | cons _ _ ih => simp [State.writeBytes, ih]

/-! ## setRegsFrom, which keeps every field but `v` -/

@[simp] theorem State.setRegsFrom_mem (s : State) (k : Nat) (l : List Byte) : (s.setRegsFrom k l).mem = s.mem := by
  induction l generalizing s k with
  | nil => rfl
  | cons _ _ ih => simp [State.setRegsFrom, ih]

@[simp] theorem State.setRegsFrom_i (s : State) (k : Nat) (l : List Byte) : (s.setRegsFrom k l).i = s.i := by
  induction l generalizing s k with
  | nil => rfl
  | cons _ _ ih => simp [State.setRegsFrom, ih]

@[simp] theorem State.setRegsFrom_pc (s : State) (k : Nat) (l : List Byte) : (s.setRegsFrom k l).pc = s.pc := by
  induction l generalizing s k with
  | nil => rfl
  | cons _ _ ih => simp [State.setRegsFrom, ih]

@[simp] theorem State.setRegsFrom_stack (s : State) (k : Nat) (l : List Byte) : (s.setRegsFrom k l).stack = s.stack := by
  induction l generalizing s k with
  | nil => rfl
  | cons _ _ ih => simp [State.setRegsFrom, ih]

@[simp] theorem State.setRegsFrom_sp (s : State) (k : Nat) (l : List Byte) : (s.setRegsFrom k l).sp = s.sp := by
  induction l generalizing s k with
  | nil => rfl
  | cons _ _ ih => simp [State.setRegsFrom, ih]

@[simp] theorem State.setRegsFrom_fb (s : State) (k : Nat) (l : List Byte) : (s.setRegsFrom k l).fb = s.fb := by
  induction l generalizing s k with
  | nil => rfl
  | cons _ _ ih => simp [State.setRegsFrom, ih]

@[simp] theorem State.setRegsFrom_chg (s : State) (k : Nat) (l : List Byte) : (s.setRegsFrom k l).chg = s.chg := by
  induction l generalizing s k with
  | nil => rfl
  | cons _ _ ih => simp [State.setRegsFrom, ih]

@[simp] theorem State.setRegsFrom_op (s : State) (k : Nat) (l : List Byte) : (s.setRegsFrom k l).op = s.op := by
  induction l generalizing s k with
  | nil => rfl
  | cons _ _ ih => simp [State.setRegsFrom, ih]

@[simp] theorem State.setRegsFrom_fault (s : State) (k : Nat) (l : List Byte) : (s.setRegsFrom k l).fault = s.fault := by
  induction l generalizing s k with
  | nil => rfl
  | cons _ _ ih => simp [State.setRegsFrom, ih]

@[simp] theorem State.setRegsFrom_params (s : State) (k : Nat) (l : List Byte) : (s.setRegsFrom k l).params = s.params := by
  induction l generalizing s k with
  | nil => rfl
  | cons _ _ ih => simp [State.setRegsFrom, ih]

@[simp] theorem State.setRegsFrom_inputs (s : State) (k : Nat) (l : List Byte) : (s.setRegsFrom k l).inputs = s.inputs := by
  induction l generalizing s k with
  | nil => rfl
  | cons _ _ ih => simp [State.setRegsFrom, ih]

@[simp] theorem State.setRegsFrom_tick (s : State) (k : Nat) (l : List Byte) : (s.setRegsFrom k l).tick = s.tick := by
  induction l generalizing s k with
  | nil => rfl
  | cons _ _ ih => simp [State.setRegsFrom, ih]

@[simp] theorem State.setRegsFrom_out (s : State) (k : Nat) (l : List Byte) : (s.setRegsFrom k l).out = s.out := by
  induction l generalizing s k with
  | nil => rfl
  | cons _ _ ih => simp [State.setRegsFrom, ih]

/-! ## loadFrom, which keeps every field but `mem` -/

@[simp] theorem State.loadFrom_v (s : State) (a : Nat) (l : List Byte) : (s.loadFrom a l).v = s.v := by
  induction l generalizing s a with
  | nil => rfl
  | cons _ _ ih => simp only [State.loadFrom, ih]; split <;> rfl

@[simp] theorem State.loadFrom_i (s : State) (a : Nat) (l : List Byte) : (s.loadFrom a l).i = s.i := by
  induction l generalizing s a with
  | nil => rfl
  | cons _ _ ih => simp only [State.loadFrom, ih]; split <;> rfl

@[simp] theorem State.loadFrom_pc (s : State) (a : Nat) (l : List Byte) : (s.loadFrom a l).pc = s.pc := by
  induction l generalizing s a with
  | nil => rfl
  | cons _ _ ih => simp only [State.loadFrom, ih]; split <;> rfl

@[simp] theorem State.loadFrom_stack (s : State) (a : Nat) (l : List Byte) : (s.loadFrom a l).stack = s.stack := by
  induction l generalizing s a with
  | nil => rfl
  | cons _ _ ih => simp only [State.loadFrom, ih]; split <;> rfl

@[simp] theorem State.loadFrom_sp (s : State) (a : Nat) (l : List Byte) : (s.loadFrom a l).sp = s.sp := by
  induction l generalizing s a with
  | nil => rfl
  | cons _ _ ih => simp only [State.loadFrom, ih]; split <;> rfl

@[simp] theorem State.loadFrom_fb (s : State) (a : Nat) (l : List Byte) : (s.loadFrom a l).fb = s.fb := by
  induction l generalizing s a with
  | nil => rfl
  | cons _ _ ih => simp only [State.loadFrom, ih]; split <;> rfl

@[simp] theorem State.loadFrom_chg (s : State) (a : Nat) (l : List Byte) : (s.loadFrom a l).chg = s.chg := by
  induction l generalizing s a with
  | nil => rfl
  | cons _ _ ih => simp only [State.loadFrom, ih]; split <;> rfl

@[simp] theorem State.loadFrom_op (s : State) (a : Nat) (l : List Byte) : (s.loadFrom a l).op = s.op := by
  induction l generalizing s a with
  | nil => rfl
  | cons _ _ ih => simp only [State.loadFrom, ih]; split <;> rfl

@[simp] theorem State.loadFrom_fault (s : State) (a : Nat) (l : List Byte) : (s.loadFrom a l).fault = s.fault := by
  induction l generalizing s a with
  | nil => rfl
  | cons _ _ ih => simp only [State.loadFrom, ih]; split <;> rfl

@[simp] theorem State.loadFrom_params (s : State) (a : Nat) (l : List Byte) : (s.loadFrom a l).params = s.params := by
  induction l generalizing s a with
  | nil => rfl
  | cons _ _ ih => simp only [State.loadFrom, ih]; split <;> rfl

@[simp] theorem State.loadFrom_inputs (s : State) (a : Nat) (l : List Byte) : (s.loadFrom a l).inputs = s.inputs := by
  induction l generalizing s a with
  | nil => rfl
  | cons _ _ ih => simp only [State.loadFrom, ih]; split <;> rfl

@[simp] theorem State.loadFrom_tick (s : State) (a : Nat) (l : List Byte) : (s.loadFrom a l).tick = s.tick := by
  induction l generalizing s a with
  | nil => rfl
  | cons _ _ ih => simp only [State.loadFrom, ih]; split <;> rfl

@[simp] theorem State.loadFrom_out (s : State) (a : Nat) (l : List Byte) : (s.loadFrom a l).out = s.out := by
  induction l generalizing s a with
  | nil => rfl
  | cons _ _ ih => simp only [State.loadFrom, ih]; split <;> rfl

end Sys2Proof.Machine
end

