-- ==== Sys2Proof/Laws/Memory.lean ====
section
/-! SUPPORT. Memory: read after write, what a write leaves alone, and that every memory operation keeps the
canonical form. -/

namespace Sys2Proof.Machine

/-! ## The canonical form -/

theorem Memory.wfFrom_cons {low a : Nat} {b : Byte} {rest : Memory} :
    Memory.wfFrom low ((a, b) :: rest) = true ↔
      low ≤ a ∧ a < 4096 ∧ b ≠ unlistedByte ∧ Memory.wfFrom (a + 1) rest = true := by
  simp [Memory.wfFrom, and_assoc]

theorem Memory.wfFrom_mono {low low' : Nat} {m : Memory} (h : Memory.wfFrom low m = true)
    (hle : low' ≤ low) : Memory.wfFrom low' m = true := by
  cases m with
  | nil => rfl
  | cons c rest =>
    obtain ⟨a, b⟩ := c
    rw [Memory.wfFrom_cons] at h ⊢
    exact ⟨by omega, h.2⟩

/-- Below its canonical form's first address a memory lists nothing. -/
theorem lookupByte_below {low a : Nat} {m : Memory} (h : Memory.wfFrom low m = true) (ha : a < low) :
    lookupByte a m = unlistedByte := by
  induction m generalizing low with
  | nil => rfl
  | cons c rest ih =>
    obtain ⟨b, v⟩ := c
    rw [Memory.wfFrom_cons] at h
    rw [lookupByte, if_neg (by omega)]
    exact ih h.2.2.2 (by omega)

theorem consByte_wfFrom {low a : Nat} {v : Byte} {m : Memory} (h : Memory.wfFrom (a + 1) m = true)
    (hlow : low ≤ a) (ha : a < 4096) : Memory.wfFrom low (consByte a v m) = true := by
  unfold consByte
  split
  · exact Memory.wfFrom_mono h (by omega)
  · rename_i hv
    exact Memory.wfFrom_cons.mpr ⟨hlow, ha, hv, h⟩

theorem insertByte_wfFrom {low a : Nat} {v : Byte} {m : Memory} (h : Memory.wfFrom low m = true)
    (hlow : low ≤ a) (ha : a < 4096) : Memory.wfFrom low (insertByte a v m) = true := by
  induction m generalizing low with
  | nil => exact consByte_wfFrom (m := []) rfl hlow ha
  | cons c rest ih =>
    obtain ⟨b, w⟩ := c
    have h' := Memory.wfFrom_cons.mp h
    unfold insertByte
    split
    · exact consByte_wfFrom (Memory.wfFrom_cons.mpr ⟨by omega, h'.2⟩) hlow ha
    · split
      · exact consByte_wfFrom (by rename_i hab; rw [hab]; exact h'.2.2.2) hlow ha
      · exact Memory.wfFrom_cons.mpr ⟨h'.1, h'.2.1, h'.2.2.1, ih h'.2.2.2 (by omega)⟩

/-! ## Lookup after insertion -/

theorem lookupByte_consByte_ne {a b : Nat} {v : Byte} {m : Memory} (hab : b ≠ a) :
    lookupByte b (consByte a v m) = lookupByte b m := by
  unfold consByte
  split
  · rfl
  · rw [lookupByte, if_neg hab]

theorem lookupByte_consByte_same {a : Nat} {v : Byte} {m : Memory} (h : Memory.wfFrom (a + 1) m = true) :
    lookupByte a (consByte a v m) = v := by
  unfold consByte
  split
  · rename_i hv
    rw [hv, lookupByte_below h (by omega)]
  · rw [lookupByte, if_pos rfl]

/-- A write leaves every other place alone. -/
theorem lookupByte_insertByte_ne {a b : Nat} {v : Byte} {m : Memory} (hab : b ≠ a) :
    lookupByte b (insertByte a v m) = lookupByte b m := by
  induction m with
  | nil => exact lookupByte_consByte_ne hab
  | cons c rest ih =>
    obtain ⟨d, w⟩ := c
    unfold insertByte
    split
    · exact lookupByte_consByte_ne hab
    · split
      · rename_i had
        rw [lookupByte_consByte_ne hab, lookupByte, if_neg (by omega)]
      · simp [lookupByte, ih]

/-- A read after a write to the same place gives the value written. -/
theorem lookupByte_insertByte_same {low a : Nat} {v : Byte} {m : Memory}
    (h : Memory.wfFrom low m = true) : lookupByte a (insertByte a v m) = v := by
  induction m generalizing low with
  | nil => exact lookupByte_consByte_same rfl
  | cons c rest ih =>
    obtain ⟨b, w⟩ := c
    have h' := Memory.wfFrom_cons.mp h
    unfold insertByte
    split
    · exact lookupByte_consByte_same (Memory.wfFrom_cons.mpr ⟨by omega, h'.2⟩)
    · split
      · rename_i hab
        exact lookupByte_consByte_same (by rw [hab]; exact h'.2.2.2)
      · rw [lookupByte, if_neg (by assumption)]
        exact ih h'.2.2.2

/-! ## The same, of a state -/

theorem State.writeByte_wf {s : State} (a : Addr) (v : Byte) (h : s.mem.wf = true) :
    (s.writeByte a v).mem.wf = true :=
  insertByte_wfFrom h (Nat.zero_le _) a.isLt

theorem State.writeBytes_wf {s : State} (l : List (Addr × Byte)) (h : s.mem.wf = true) :
    (s.writeBytes l).mem.wf = true := by
  induction l generalizing s with
  | nil => exact h
  | cons c rest ih => exact ih (State.writeByte_wf _ _ h)

theorem State.loadFrom_wf {s : State} (a : Nat) (l : List Byte) (h : s.mem.wf = true) :
    (s.loadFrom a l).mem.wf = true := by
  induction l generalizing s a with
  | nil => exact h
  | cons b rest ih =>
    refine ih _ ?_
    split
    · exact State.writeByte_wf _ _ h
    · exact h

theorem State.placeWord_wf {s : State} (w : Word) (h : s.mem.wf = true) :
    (s.placeWord w).mem.wf = true :=
  State.writeBytes_wf _ h

theorem State.resetWith_wf (p : Params) : (State.resetWith p).mem.wf = true := rfl

theorem State.readByte_writeByte_ne {s : State} {a b : Addr} {v : Byte} (hab : b ≠ a) :
    (s.writeByte a v).readByte b = s.readByte b :=
  lookupByte_insertByte_ne (fun h => hab (BitVec.eq_of_toNat_eq h))

theorem State.readByte_writeByte_same {s : State} {a : Addr} {v : Byte} (h : s.mem.wf = true) :
    (s.writeByte a v).readByte a = v :=
  lookupByte_insertByte_same h

/-- Writes leave every address they do not name alone. -/
theorem State.readByte_writeBytes_of_not_mem {s : State} {l : List (Addr × Byte)} {a : Addr}
    (ha : a ∉ l.map Prod.fst) : (s.writeBytes l).readByte a = s.readByte a := by
  induction l generalizing s with
  | nil => rfl
  | cons c rest ih =>
    obtain ⟨b, v⟩ := c
    simp only [List.map_cons, List.mem_cons, not_or] at ha
    rw [State.writeBytes, ih ha.2, State.readByte_writeByte_ne ha.1]

/-- Writes to distinct addresses: each reads back what was written to it. -/
theorem State.readByte_writeBytes_of_mem {s : State} {l : List (Addr × Byte)} {a : Addr} {v : Byte}
    (h : s.mem.wf = true) (hd : (l.map Prod.fst).Nodup) (ha : (a, v) ∈ l) :
    (s.writeBytes l).readByte a = v := by
  induction l generalizing s with
  | nil => cases ha
  | cons c rest ih =>
    obtain ⟨b, w⟩ := c
    rw [List.map_cons, List.nodup_cons] at hd
    rw [State.writeBytes]
    rcases List.mem_cons.mp ha with heq | hin
    · cases heq
      rw [State.readByte_writeBytes_of_not_mem hd.1, State.readByte_writeByte_same h]
    · exact ih (State.writeByte_wf _ _ h) hd.2 hin

/-- The loader leaves every byte below its first address alone. -/
theorem State.readByte_loadFrom_below {s : State} {n : Nat} {l : List Byte} {a : Addr}
    (ha : a.toNat < n) : (s.loadFrom n l).readByte a = s.readByte a := by
  induction l generalizing s n with
  | nil => rfl
  | cons b rest ih =>
    rw [State.loadFrom, ih (by omega)]
    split
    · refine State.readByte_writeByte_ne (fun h => ?_)
      have := congrArg BitVec.toNat h
      simp at this
      omega
    · rfl

end Sys2Proof.Machine
end

