-- ==== Sys2Proof/Laws/Ops.lean ====
section
/-! SUPPORT. What each shared operation can do, said once: registers, data addresses, the call stack, the end of
a handler, the fetch and the end of a step. -/

namespace Sys2Proof.Machine

/-! ## Reads through the updates that do not touch what is read -/

@[simp] theorem State.reg_setIndex (s : State) (w : Word) (r : RegSel) : (s.setIndex w).reg r = s.reg r := rfl
@[simp] theorem State.readByte_setIndex (s : State) (w : Word) (a : Addr) :
    (s.setIndex w).readByte a = s.readByte a := rfl
@[simp] theorem State.pixel_setIndex (s : State) (w : Word) (x : Fin 64) (y : Fin 32) :
    (s.setIndex w).pixel x y = s.pixel x y := rfl
@[simp] theorem State.reg_writeByte (s : State) (b : Addr) (v : Byte) (r : RegSel) : (s.writeByte b v).reg r = s.reg r := rfl
@[simp] theorem State.pixel_writeByte (s : State) (b : Addr) (v : Byte) (x : Fin 64) (y : Fin 32) :
    (s.writeByte b v).pixel x y = s.pixel x y := rfl
@[simp] theorem State.reg_emit (s : State) (e : Event) (r : RegSel) : (s.emit e).reg r = s.reg r := rfl
@[simp] theorem State.readByte_emit (s : State) (e : Event) (a : Addr) :
    (s.emit e).readByte a = s.readByte a := rfl
@[simp] theorem State.pixel_emit (s : State) (e : Event) (x : Fin 64) (y : Fin 32) :
    (s.emit e).pixel x y = s.pixel x y := rfl
@[simp] theorem State.reg_setPc (s : State) (p : Nat) (r : RegSel) : (s.setPc p).reg r = s.reg r := rfl
@[simp] theorem State.readByte_setPc (s : State) (p : Nat) (a : Addr) :
    (s.setPc p).readByte a = s.readByte a := rfl
@[simp] theorem State.pixel_setPc (s : State) (p : Nat) (x : Fin 64) (y : Fin 32) :
    (s.setPc p).pixel x y = s.pixel x y := rfl
@[simp] theorem State.reg_setFault (s : State) (c : FaultCode) (r : RegSel) : (s.setFault c).reg r = s.reg r := rfl
@[simp] theorem State.readByte_setFault (s : State) (c : FaultCode) (a : Addr) :
    (s.setFault c).readByte a = s.readByte a := rfl
@[simp] theorem State.pixel_setFault (s : State) (c : FaultCode) (x : Fin 64) (y : Fin 32) :
    (s.setFault c).pixel x y = s.pixel x y := rfl
@[simp] theorem State.reg_setStack (s : State) (k : Vector Word 16) (n : Fin 17) (r : RegSel) :
    (s.setStack k n).reg r = s.reg r := rfl
@[simp] theorem State.readByte_setStack (s : State) (k : Vector Word 16) (n : Fin 17) (a : Addr) :
    (s.setStack k n).readByte a = s.readByte a := rfl
@[simp] theorem State.pixel_setStack (s : State) (k : Vector Word 16) (n : Fin 17) (x : Fin 64) (y : Fin 32) :
    (s.setStack k n).pixel x y = s.pixel x y := rfl
@[simp] theorem State.reg_setDisplay (s : State) (d : Display) (r : RegSel) : (s.setDisplay d).reg r = s.reg r := rfl
@[simp] theorem State.readByte_setDisplay (s : State) (d : Display) (a : Addr) :
    (s.setDisplay d).readByte a = s.readByte a := rfl
@[simp] theorem State.reg_clearOutput (s : State) (r : RegSel) : s.clearOutput.reg r = s.reg r := rfl
@[simp] theorem State.readByte_clearOutput (s : State) (a : Addr) :
    s.clearOutput.readByte a = s.readByte a := rfl
@[simp] theorem State.pixel_clearOutput (s : State) (x : Fin 64) (y : Fin 32) :
    s.clearOutput.pixel x y = s.pixel x y := rfl
@[simp] theorem State.reg_latchOpcode (s : State) (w : Word) (r : RegSel) : (s.latchOpcode w).reg r = s.reg r := rfl
@[simp] theorem State.readByte_latchOpcode (s : State) (w : Word) (a : Addr) :
    (s.latchOpcode w).readByte a = s.readByte a := rfl
@[simp] theorem State.pixel_latchOpcode (s : State) (w : Word) (x : Fin 64) (y : Fin 32) :
    (s.latchOpcode w).pixel x y = s.pixel x y := rfl
@[simp] theorem State.reg_passInputs (s : State) (r : RegSel) : s.passInputs.reg r = s.reg r := rfl
@[simp] theorem State.readByte_passInputs (s : State) (a : Addr) :
    s.passInputs.readByte a = s.readByte a := rfl
@[simp] theorem State.pixel_passInputs (s : State) (x : Fin 64) (y : Fin 32) :
    s.passInputs.pixel x y = s.pixel x y := rfl
@[simp] theorem State.readByte_setReg (s : State) (q : RegSel) (v : Byte) (a : Addr) :
    (s.setReg q v).readByte a = s.readByte a := rfl
@[simp] theorem State.pixel_setReg (s : State) (q : RegSel) (v : Byte) (x : Fin 64) (y : Fin 32) :
    (s.setReg q v).pixel x y = s.pixel x y := rfl
@[simp] theorem State.readByte_setRegAndFlag (s : State) (q : RegSel) (v : Byte) (f : Bool) (a : Addr) :
    (s.setRegAndFlag q v f).readByte a = s.readByte a := rfl
@[simp] theorem State.pixel_setRegAndFlag (s : State) (q : RegSel) (v : Byte) (f : Bool) (x : Fin 64) (y : Fin 32) :
    (s.setRegAndFlag q v f).pixel x y = s.pixel x y := rfl
@[simp] theorem State.pixel_setDisplay (s : State) (d : Display) (x : Fin 64) (y : Fin 32) :
    (s.setDisplay d).pixel x y = pixelOf d x y := rfl
@[simp] theorem State.reg_writeBytes (s : State) (l : List (Addr × Byte)) (r : RegSel) :
    (s.writeBytes l).reg r = s.reg r := by simp [State.reg]
@[simp] theorem State.readByte_setRegsFrom (s : State) (k : Nat) (l : List Byte) (a : Addr) :
    (s.setRegsFrom k l).readByte a = s.readByte a := by simp [State.readByte]

/-! ## General registers -/

theorem State.reg_setReg (s : State) (r q : RegSel) (b : Byte) :
    (s.setReg r b).reg q = if q = r then b else s.reg q := by
  unfold State.reg State.setReg
  simp only [Vector.getElem_set]
  by_cases h : q = r
  · simp [h]
  · have hn : r.toNat ≠ q.toNat := fun hh => h (BitVec.eq_of_toNat_eq hh.symm)
    simp [h, hn]

@[simp] theorem State.reg_setReg_same (s : State) (r : RegSel) (b : Byte) : (s.setReg r b).reg r = b := by
  simp [State.reg_setReg]

theorem State.reg_setReg_ne {s : State} {r q : RegSel} {b : Byte} (h : q ≠ r) :
    (s.setReg r b).reg q = s.reg q := by
  simp [State.reg_setReg, h]

/-- Writing a register with the value it holds changes nothing. -/
@[simp] theorem State.setReg_reg (s : State) (r : RegSel) : s.setReg r (s.reg r) = s := by
  simp [State.setReg, State.reg]

/-- The flag is written last (R147). -/
theorem State.reg_setRegAndFlag (s : State) (x q : RegSel) (b : Byte) (f : Bool) :
    (s.setRegAndFlag x b f).reg q =
      if q = flagReg then flagByte f else if q = x then b else s.reg q := by
  simp [State.setRegAndFlag, State.reg_setReg]

@[simp] theorem State.length_regsFrom (s : State) (k count : Nat) : (s.regsFrom k count).length = count := by
  induction count generalizing k with
  | zero => rfl
  | succ n ih => simp [State.regsFrom, ih]

theorem State.getElem_regsFrom (s : State) (k count j : Nat) (h : j < (s.regsFrom k count).length) :
    (s.regsFrom k count)[j] = s.reg (BitVec.ofNat 4 (k + j)) := by
  induction count generalizing k j with
  | zero => simp at h
  | succ n ih =>
    cases j with
    | zero => rfl
    | succ j =>
      simp only [State.regsFrom, List.getElem_cons_succ]
      rw [ih, Nat.add_right_comm, Nat.add_assoc]

/-- A run of register writes from V[k] on. -/
theorem State.reg_setRegsFrom (s : State) (k : Nat) (l : List Byte) (r : RegSel)
    (hk : k + l.length ≤ 16) :
    (s.setRegsFrom k l).reg r =
      if h : k ≤ r.toNat ∧ r.toNat < k + l.length then l[r.toNat - k]'(by omega) else s.reg r := by
  induction l generalizing s k with
  | nil => simp [State.setRegsFrom]
  | cons b rest ih =>
    simp only [List.length_cons] at hk
    rw [State.setRegsFrom, ih _ _ (by omega), State.reg_setReg]
    have hofnat : (BitVec.ofNat 4 k).toNat = k := by simp; omega
    by_cases hr : r.toNat = k
    · have : r = BitVec.ofNat 4 k := BitVec.eq_of_toNat_eq (by omega)
      simp [this, hofnat]
    · have : r ≠ BitVec.ofNat 4 k := fun hh => hr (by rw [hh, hofnat])
      simp only [this, if_false, List.length_cons]
      by_cases hin : k + 1 ≤ r.toNat ∧ r.toNat < k + 1 + rest.length
      · rw [dif_pos hin, dif_pos (by omega)]
        have : r.toNat - k = (r.toNat - (k + 1)) + 1 := by omega
        simp [this]
      · rw [dif_neg hin, dif_neg (by omega)]

/-! ## Data addresses (R55) -/

theorem dataAddr_below {p : Params} {ea : Nat} (h : ea < 4096) : dataAddr p ea = some (BitVec.ofNat 12 ea) := by
  simp [dataAddr, h]

theorem dataAddr_wrap {p : Params} (hp : p.dataOob = .wrap) (ea : Nat) :
    dataAddr p ea = some (BitVec.ofNat 12 ea) := by
  have : BitVec.ofNat 12 (ea % 4096) = BitVec.ofNat 12 ea := BitVec.eq_of_toNat_eq (by simp)
  simp [dataAddr, hp, this]

theorem dataAddr_fault {p : Params} {ea : Nat} (hp : p.dataOob = .fault) (h : 4096 ≤ ea) :
    dataAddr p ea = none := by
  simp [dataAddr, hp, Nat.not_lt.mpr h]

/-- All addresses of an access answer where the access ends inside memory or the policy wraps. -/
theorem dataAddrsFrom_some {p : Params} {ea count : Nat}
    (h : count = 0 ∨ ea + count ≤ 4096 ∨ p.dataOob = .wrap) :
    dataAddrsFrom p ea count = some ((List.range count).map fun k => BitVec.ofNat 12 (ea + k)) := by
  induction count generalizing ea with
  | zero => rfl
  | succ n ih =>
    have h1 : dataAddr p ea = some (BitVec.ofNat 12 ea) := by
      rcases h with h | h | h
      · cases h
      · exact dataAddr_below (by omega)
      · exact dataAddr_wrap h ea
    have h2 := ih (ea := ea + 1) (by rcases h with h | h | h <;> [cases h; exact .inr (.inl (by omega)); exact .inr (.inr h)])
    simp only [dataAddrsFrom, h1, h2, List.range_succ_eq_map, List.map_cons, List.map_map, Nat.add_zero]
    congr 2
    apply List.map_congr_left
    intro k _
    simp [Nat.add_assoc, Nat.add_comm 1 k]

/-- Where it does not, the access raises. -/
theorem dataAddrsFrom_none {p : Params} {ea count : Nat} (hp : p.dataOob = .fault) (h0 : count ≠ 0)
    (h : 4096 < ea + count) : dataAddrsFrom p ea count = none := by
  induction count generalizing ea with
  | zero => exact absurd rfl h0
  | succ n ih =>
    by_cases hea : 4096 ≤ ea
    · simp [dataAddrsFrom, dataAddr_fault hp hea]
    · have hn : dataAddrsFrom p (ea + 1) n = none := ih (by omega) (by omega)
      simp [dataAddrsFrom, hn]

/-- The addresses of an index-relative access. -/
theorem State.dataAddrs_some {s : State} {count : Nat}
    (h : count = 0 ∨ s.i.toNat + count ≤ 4096 ∨ s.params.dataOob = .wrap) :
    s.dataAddrs count = some ((List.range count).map fun k => BitVec.ofNat 12 (s.i.toNat + k)) :=
  dataAddrsFrom_some h

theorem State.dataAddrs_none {s : State} {count : Nat}
    (h : ¬ (count = 0 ∨ s.i.toNat + count ≤ 4096 ∨ s.params.dataOob = .wrap)) :
    s.dataAddrs count = none := by
  simp only [not_or] at h
  refine dataAddrsFrom_none ?_ h.1 (by omega)
  cases hp : s.params.dataOob
  · rfl
  · exact absurd hp h.2.2

/-- The addresses of an access of at most 16 bytes are distinct. -/
theorem nodup_addrs {ea count : Nat} (h : count ≤ 4096) :
    ((List.range count).map fun k => (BitVec.ofNat 12 (ea + k) : Addr)).Nodup := by
  refine List.Nodup.map_on ?_ List.nodup_range
  intro a ha b hb hab
  have := congrArg BitVec.toNat hab
  simp only [List.mem_range, BitVec.toNat_ofNat] at *
  omega

/-! ## The call stack -/

theorem State.push_some {s : State} {w : Word} (h : s.sp.val < 16) :
    s.push w = some (s.setStack (s.stack.set s.sp.val w h) ⟨s.sp.val + 1, Nat.succ_lt_succ h⟩) := by
  simp [State.push, h]

theorem State.push_none {s : State} {w : Word} (h : s.sp = 16) : s.push w = none := by
  simp [State.push, h]

theorem State.pop_none {s : State} (h : s.sp = 0) : s.pop = none := by
  simp [State.pop, h]

theorem State.pop_some {s : State} (h : 0 < s.sp.val) :
    s.pop = some (s.stack[s.sp.val - 1]'(by have := s.sp.isLt; omega),
      s.setStack s.stack ⟨s.sp.val - 1, by have := s.sp.isLt; omega⟩) := by
  simp [State.pop, h]

/-! ## The end of a handler and of a step -/

/-- A completed handler answers a next state that differs from its state in PC alone. -/
theorem State.complete_eq (s : State) (d : Directive) :
    s.complete d = .next (s.setPc (resolvePc s.params d s.pc)) := rfl

/-- A raise answers a next state that differs in FAULT alone (R222). -/
theorem State.raise_eq (s : State) (c : FaultCode) : s.raise c = .next (s.setFault c) := rfl

@[simp] theorem passInputsOf_next (s : State) : passInputsOf (.next s) = .next s.passInputs := rfl

theorem resolvePc_lt (p : Params) (d : Directive) (pc : Nat) : resolvePc p d pc < 2 ^ p.pcWidth := by
  cases d <;> exact Nat.mod_lt _ (Nat.two_pow_pos _)

/-! ## Fetch (R102) -/

theorem State.fetch_inside {s : State} (h : s.pc + 1 < 4096) :
    s.fetch = some (wordOfBytes (s.readByte (BitVec.ofNat 12 s.pc))
      (s.readByte (BitVec.ofNat 12 (s.pc + 1)))) := by
  simp [State.fetch, h]

theorem State.fetch_substitute {s : State} (h : 4096 ≤ s.pc + 1) (hp : s.params.fetchOob = .substitute) :
    s.fetch = some 0x0000 := by
  simp [State.fetch, Nat.not_lt.mpr h, hp]

theorem State.fetch_fault {s : State} (h : 4096 ≤ s.pc + 1) (hp : s.params.fetchOob = .fault) :
    s.fetch = none := by
  simp [State.fetch, Nat.not_lt.mpr h, hp]

/-! ## The cycle (R100) -/

theorem cycle_faulted {f : Instr → State → Result} {s : State} (h : s.fault ≠ .none) :
    cycle f s = .next s.clearOutput.passInputs := by
  simp [cycle, h]

theorem cycle_noFetch {f : Instr → State → Result} {s : State} (h : s.fault = .none) (hf : s.fetch = none) :
    cycle f s = passInputsOf (s.clearOutput.raise .fetchBounds) := by
  simp [cycle, h, hf]

theorem cycle_fetched {f : Instr → State → Result} {s : State} {w : Word} (h : s.fault = .none)
    (hf : s.fetch = some w) :
    cycle f s = passInputsOf (handleWord f w (s.clearOutput.latchOpcode w)) := by
  simp [cycle, h, hf]

/-- Everything a step can do: nothing on a faulted block, FETCH_BOUNDS, the decoded instruction, or
the no-operation handler. -/
theorem cycle_cases (f : Instr → State → Result) (s : State) :
    (s.fault ≠ .none ∧ cycle f s = .next s.clearOutput.passInputs) ∨
    (s.fault = .none ∧ s.fetch = none ∧ cycle f s = passInputsOf (s.clearOutput.raise .fetchBounds)) ∨
    (∃ w i, s.fault = .none ∧ s.fetch = some w ∧ decode w = .ok i ∧
      cycle f s = passInputsOf (f i (s.clearOutput.latchOpcode w))) ∨
    (∃ w e, s.fault = .none ∧ s.fetch = some w ∧ decode w = .error e ∧
      cycle f s = passInputsOf (execNoOperation (s.clearOutput.latchOpcode w))) := by
  by_cases h : s.fault = .none
  · cases hf : s.fetch with
    | none => exact .inr (.inl ⟨h, rfl, cycle_noFetch h hf⟩)
    | some w =>
      have hc := cycle_fetched (f := f) h hf
      cases hd : decode w with
      | ok i => exact .inr (.inr (.inl ⟨w, i, h, rfl, hd, by rw [hc, handleWord, hd]⟩))
      | error e => exact .inr (.inr (.inr ⟨w, e, h, rfl, hd, by rw [hc, handleWord, hd]⟩))
  · exact .inl ⟨h, cycle_faulted h⟩

end Sys2Proof.Machine
end

