-- ==== Sys2Proof/Laws/Display.lean ====
section
/-! SUPPORT. The bitmap: reading after writing a pixel, and what one pixel, one row and all rows of a sprite do. -/

namespace Sys2Proof.Machine

/-- A pixel reads what was last written to it, and a write leaves every other pixel alone. -/
theorem pixelOf_setPixelOf (d : Display) (x px : Fin 64) (y py : Fin 32) (b : Bool) :
    pixelOf (setPixelOf d x y b) px py = if px = x ∧ py = y then b else pixelOf d px py := by
  unfold pixelOf setPixelOf
  simp only [Vector.getElem_set]
  by_cases hx : x.val = px.val
  · have hx' : px = x := Fin.ext hx.symm
    subst hx'
    by_cases hy : y.val = py.val
    · have hy' : py = y := Fin.ext hy.symm
      simp [hy']
    · have hy' : ¬ py = y := fun h => hy (by rw [h])
      simp [hy, hy']
  · have hx' : ¬ px = x := fun h => hx (by rw [h])
    simp [hx, hx']

@[simp] theorem pixelOf_blankDisplay (x : Fin 64) (y : Fin 32) : pixelOf blankDisplay x y = false := by
  simp [pixelOf, blankDisplay]

/-- Two bitmaps with the same pixels are the same. -/
theorem display_ext {d e : Display} (h : ∀ x y, pixelOf d x y = pixelOf e x y) : d = e := by
  apply Vector.ext
  intro i hi
  apply Vector.ext
  intro j hj
  exact h ⟨i, hi⟩ ⟨j, hj⟩

/-! ## One pixel of a sprite (R182) -/

theorem pixelOf_drawPixel (mode : CollisionMode) (x0 y0 row : Byte) (r b : Nat) (c : Compositor)
    (px : Fin 64) (py : Fin 32) :
    pixelOf (drawPixel mode x0 y0 row r b c).fb px py =
      if px = columnOf x0 b ∧ py = lineOf y0 r then pixelOf c.fb px py ^^ row.getLsbD (7 - b)
      else pixelOf c.fb px py := by
  simp only [drawPixel, pixelOf_setPixelOf]
  split
  · rename_i h
    rw [h.1, h.2]
  · rfl

@[simp] theorem drawPixel_vf_lastPixel (x0 y0 row : Byte) (r b : Nat) (c : Compositor) :
    (drawPixel .lastPixel x0 y0 row r b c).vf =
      flagByte (pixelOf c.fb (columnOf x0 b) (lineOf y0 r) && row.getLsbD (7 - b)) := rfl

@[simp] theorem drawPixel_vf_anyPixel (x0 y0 row : Byte) (r b : Nat) (c : Compositor) :
    (drawPixel .anyPixel x0 y0 row r b c).vf = c.vf := rfl

@[simp] theorem drawPixel_any (mode : CollisionMode) (x0 y0 row : Byte) (r b : Nat) (c : Compositor) :
    (drawPixel mode x0 y0 row r b c).any =
      (c.any || (pixelOf c.fb (columnOf x0 b) (lineOf y0 r) && row.getLsbD (7 - b))) := rfl

/-! ## Coordinates (R184) -/

/-- The eight columns of one row are distinct. -/
theorem columnOf_inj {x0 : Byte} {b b' : Nat} (hb : b < 64) (hb' : b' < 64)
    (h : columnOf x0 b = columnOf x0 b') : b = b' := by
  have := congrArg Fin.val h
  simp only [columnOf, Fin.val_ofNat] at this
  omega

/-- The rows of a sprite are distinct. -/
theorem lineOf_inj {y0 : Byte} {r r' : Nat} (hr : r < 32) (hr' : r' < 32)
    (h : lineOf y0 r = lineOf y0 r') : r = r' := by
  have := congrArg Fin.val h
  simp only [lineOf, Fin.val_ofNat] at this
  omega

/-- A pixel is the one at bit-offset `b` exactly where it lies `b` columns to the right of x0. -/
theorem eq_columnOf_iff {x0 : Byte} {b : Nat} (hb : b < 64) (px : Fin 64) :
    px = columnOf x0 b ↔ (px.val + 64 - x0.toNat % 64) % 64 = b := by
  rw [Fin.ext_iff, columnOf, Fin.val_ofNat]
  have := px.isLt
  omega

/-- A pixel is on row `r` exactly where it lies `r` lines below y0. -/
theorem eq_lineOf_iff {y0 : Byte} {r : Nat} (hr : r < 32) (py : Fin 32) :
    py = lineOf y0 r ↔ (py.val + 32 - y0.toNat % 32) % 32 = r := by
  rw [Fin.ext_iff, lineOf, Fin.val_ofNat]
  have := py.isLt
  omega

/-! ## Rows and sprites -/

/-- A row of pixels leaves every pixel of another line alone. -/
theorem pixelOf_drawRowFrom_other (mode : CollisionMode) (x0 y0 row : Byte) (r b count : Nat)
    (c : Compositor) (px : Fin 64) (py : Fin 32) (hy : py ≠ lineOf y0 r) :
    pixelOf (drawRowFrom mode x0 y0 row r b count c).fb px py = pixelOf c.fb px py := by
  induction count generalizing b c with
  | zero => rfl
  | succ n ih => rw [drawRowFrom, ih, pixelOf_drawPixel, if_neg (fun h => hy h.2)]

/-- A sprite leaves every pixel of a line it does not reach alone. -/
theorem pixelOf_drawRowsFrom_other (mode : CollisionMode) (x0 y0 : Byte) (r : Nat) (rows : List Byte)
    (c : Compositor) (px : Fin 64) (py : Fin 32)
    (hy : ∀ k, r ≤ k → k < r + rows.length → py ≠ lineOf y0 k) :
    pixelOf (drawRowsFrom mode x0 y0 r rows c).fb px py = pixelOf c.fb px py := by
  induction rows generalizing r c with
  | nil => rfl
  | cons row rest ih =>
    rw [drawRowsFrom, ih, pixelOf_drawRowFrom_other]
    · exact hy r (Nat.le_refl _) (by simp)
    · intro k hk hk'
      exact hy k (by omega) (by simp only [List.length_cons]; omega)

/-- A row of pixels combines its bits into its own line by exclusive-or. -/
theorem pixelOf_drawRowFrom (mode : CollisionMode) (x0 y0 row : Byte) (r b count : Nat) (c : Compositor)
    (px : Fin 64) (hb : b + count ≤ 64) :
    pixelOf (drawRowFrom mode x0 y0 row r b count c).fb px (lineOf y0 r) =
      (pixelOf c.fb px (lineOf y0 r) ^^
        (decide (b ≤ (px.val + 64 - x0.toNat % 64) % 64 ∧ (px.val + 64 - x0.toNat % 64) % 64 < b + count) &&
          row.getLsbD (7 - (px.val + 64 - x0.toNat % 64) % 64))) := by
  induction count generalizing b c with
  | zero =>
    have : ¬ (b ≤ (px.val + 64 - x0.toNat % 64) % 64 ∧ (px.val + 64 - x0.toNat % 64) % 64 < b + 0) := by omega
    rw [drawRowFrom, decide_eq_false this]
    simp
  | succ n ih =>
    rw [drawRowFrom, ih _ _ (by omega), pixelOf_drawPixel]
    by_cases hpx : (px.val + 64 - x0.toNat % 64) % 64 = b
    · rw [if_pos ⟨(eq_columnOf_iff (by omega) px).mpr hpx, rfl⟩, hpx]
      have h1 : ¬ (b + 1 ≤ b ∧ b < b + 1 + n) := by omega
      have h2 : b ≤ b ∧ b < b + (n + 1) := by omega
      rw [decide_eq_false h1, decide_eq_true h2]
      simp
    · rw [if_neg (fun h => hpx ((eq_columnOf_iff (by omega) px).mp h.1))]
      congr 3
      exact propext (by omega)

/-- A sprite combines its bits into the bitmap by exclusive-or: at the pixel `b` columns right of x0 and
`j` lines below y0 its bit is bit 7 - b of its row j (R182, R184). -/
theorem pixelOf_drawRowsFrom (mode : CollisionMode) (x0 y0 : Byte) (r : Nat) (rows : List Byte)
    (c : Compositor) (px : Fin 64) (py : Fin 32) (hr : r + rows.length ≤ 32) :
    pixelOf (drawRowsFrom mode x0 y0 r rows c).fb px py =
      (pixelOf c.fb px py ^^
        (decide ((px.val + 64 - x0.toNat % 64) % 64 < 8) &&
          (decide (r ≤ (py.val + 32 - y0.toNat % 32) % 32) &&
            (rows.getD ((py.val + 32 - y0.toNat % 32) % 32 - r) 0).getLsbD
              (7 - (px.val + 64 - x0.toNat % 64) % 64)))) := by
  induction rows generalizing r c with
  | nil => simp [drawRowsFrom]
  | cons row rest ih =>
    simp only [List.length_cons] at hr
    rw [drawRowsFrom, ih _ _ (by omega)]
    by_cases hpy : (py.val + 32 - y0.toNat % 32) % 32 = r
    · have hline : py = lineOf y0 r := (eq_lineOf_iff (by omega) py).mpr hpy
      have h1 : ¬ r + 1 ≤ r := by omega
      rw [hpy, hline, pixelOf_drawRowFrom mode x0 y0 row r 0 8 c px (by omega)]
      simp
    · rw [pixelOf_drawRowFrom_other _ _ _ _ _ _ _ _ _ _ (fun h => hpy ((eq_lineOf_iff (by omega) py).mp h))]
      by_cases hlt : r + 1 ≤ (py.val + 32 - y0.toNat % 32) % 32
      · have hle : r ≤ (py.val + 32 - y0.toNat % 32) % 32 := by omega
        have hsub : (py.val + 32 - y0.toNat % 32) % 32 - r = ((py.val + 32 - y0.toNat % 32) % 32 - (r + 1)) + 1 := by
          omega
        rw [decide_eq_true hlt, decide_eq_true hle, hsub, List.getD_cons_succ]
      · have hle : ¬ r ≤ (py.val + 32 - y0.toNat % 32) % 32 := by omega
        rw [decide_eq_false hlt, decide_eq_false hle]
        simp

/-! ## The collision detector (R183) -/

/-- Under LastPixel a row leaves in V[F] the collision of its last pixel, with the value that pixel had
before the row. -/
theorem drawRowFrom_vf_lastPixel (x0 y0 row : Byte) (r b count : Nat) (c : Compositor)
    (hb : b + (count + 1) ≤ 64) :
    (drawRowFrom .lastPixel x0 y0 row r b (count + 1) c).vf =
      flagByte (pixelOf c.fb (columnOf x0 (b + count)) (lineOf y0 r) && row.getLsbD (7 - (b + count))) := by
  induction count generalizing b c with
  | zero => rfl
  | succ n ih =>
    rw [drawRowFrom, ih _ _ (by omega), pixelOf_drawPixel, if_neg, Nat.add_right_comm, Nat.add_assoc]
    intro h
    have := columnOf_inj (by omega) (by omega) h.1
    omega

/-- Under LastPixel a sprite leaves in V[F] the collision of the last pixel of its last row, with the
value that pixel had before the draw. -/
theorem drawRowsFrom_vf_lastPixel (x0 y0 : Byte) (r : Nat) (rows : List Byte) (last : Byte) (c : Compositor)
    (hr : r + rows.length < 32) :
    (drawRowsFrom .lastPixel x0 y0 r (rows ++ [last]) c).vf =
      flagByte (pixelOf c.fb (columnOf x0 7) (lineOf y0 (r + rows.length)) && last.getLsbD 0) := by
  induction rows generalizing r c with
  | nil => exact drawRowFrom_vf_lastPixel x0 y0 last r 0 7 c (by omega)
  | cons row rest ih =>
    simp only [List.length_cons] at hr
    rw [List.cons_append, drawRowsFrom, ih _ _ (by omega), pixelOf_drawRowFrom_other, List.length_cons,
      Nat.add_right_comm, Nat.add_assoc]
    intro h
    have := lineOf_inj (by omega) (by omega) h
    omega

/-- A row records a collision exactly where one of its pixels was lit and is hit. -/
theorem drawRowFrom_any (mode : CollisionMode) (x0 y0 row : Byte) (r b count : Nat) (c : Compositor)
    (hb : b + count ≤ 64) :
    (drawRowFrom mode x0 y0 row r b count c).any = true ↔
      c.any = true ∨ ∃ k, b ≤ k ∧ k < b + count ∧
        pixelOf c.fb (columnOf x0 k) (lineOf y0 r) = true ∧ row.getLsbD (7 - k) = true := by
  induction count generalizing b c with
  | zero =>
    simp only [drawRowFrom]
    exact ⟨.inl, fun h => h.elim id (fun ⟨k, h1, h2, _⟩ => absurd h2 (by omega))⟩
  | succ n ih =>
    rw [drawRowFrom, ih _ _ (by omega), drawPixel_any, Bool.or_eq_true, Bool.and_eq_true, or_assoc]
    have same : ∀ k, b + 1 ≤ k → k < b + 1 + n →
        pixelOf (drawPixel mode x0 y0 row r b c).fb (columnOf x0 k) (lineOf y0 r) =
          pixelOf c.fb (columnOf x0 k) (lineOf y0 r) := by
      intro k h1 h2
      rw [pixelOf_drawPixel, if_neg]
      intro h
      have := columnOf_inj (by omega) (by omega) h.1
      omega
    constructor
    · rintro (h | h | ⟨k, h1, h2, h3, h4⟩)
      · exact .inl h
      · exact .inr ⟨b, Nat.le_refl _, by omega, h.1, h.2⟩
      · exact .inr ⟨k, by omega, by omega, by rwa [same k h1 h2] at h3, h4⟩
    · rintro (h | ⟨k, h1, h2, h3, h4⟩)
      · exact .inl h
      · by_cases hk : k = b
        · subst hk
          exact .inr (.inl ⟨h3, h4⟩)
        · exact .inr (.inr ⟨k, by omega, by omega, by rwa [same k (by omega) (by omega)], h4⟩)

/-- A sprite records a collision exactly where one of its pixels was lit and is hit. -/
theorem drawRowsFrom_any (mode : CollisionMode) (x0 y0 : Byte) (r : Nat) (rows : List Byte) (c : Compositor)
    (hr : r + rows.length ≤ 32) :
    (drawRowsFrom mode x0 y0 r rows c).any = true ↔
      c.any = true ∨ ∃ j k, j < rows.length ∧ k < 8 ∧
        pixelOf c.fb (columnOf x0 k) (lineOf y0 (r + j)) = true ∧ (rows.getD j 0).getLsbD (7 - k) = true := by
  induction rows generalizing r c with
  | nil =>
    simp only [drawRowsFrom]
    exact ⟨.inl, fun h => h.elim id (fun ⟨j, k, h1, _⟩ => absurd h1 (by simp))⟩
  | cons row rest ih =>
    simp only [List.length_cons] at hr ⊢
    rw [drawRowsFrom, ih _ _ (by omega), drawRowFrom_any _ _ _ _ _ _ _ _ (by omega), or_assoc]
    have same : ∀ j k, j < rest.length →
        pixelOf (drawRowFrom mode x0 y0 row r 0 8 c).fb (columnOf x0 k) (lineOf y0 (r + 1 + j)) =
          pixelOf c.fb (columnOf x0 k) (lineOf y0 (r + 1 + j)) := by
      intro j k hj
      refine pixelOf_drawRowFrom_other _ _ _ _ _ _ _ _ _ _ (fun h => ?_)
      have := lineOf_inj (by omega) (by omega) h
      omega
    constructor
    · rintro (h | ⟨k, _, h2, h3, h4⟩ | ⟨j, k, h1, h2, h3, h4⟩)
      · exact .inl h
      · exact .inr ⟨0, k, by omega, by omega, h3, h4⟩
      · rw [same j k h1] at h3
        exact .inr ⟨j + 1, k, by omega, h2, by rwa [Nat.add_assoc, Nat.add_comm 1 j] at h3, h4⟩
    · rintro (h | ⟨j, k, h1, h2, h3, h4⟩)
      · exact .inl h
      · cases j with
        | zero => exact .inr (.inl ⟨k, Nat.zero_le _, by omega, h3, h4⟩)
        | succ j =>
          have hj : r + (j + 1) = r + 1 + j := by omega
          rw [hj] at h3
          exact .inr (.inr ⟨j, k, by omega, h2, by rwa [same j k (by omega)], h4⟩)

/-- Under AnyPixel the compositor does not write V[F] pixel by pixel. -/
@[simp] theorem drawRowFrom_vf_anyPixel (x0 y0 row : Byte) (r b count : Nat) (c : Compositor) :
    (drawRowFrom .anyPixel x0 y0 row r b count c).vf = c.vf := by
  induction count generalizing b c with
  | zero => rfl
  | succ n ih => rw [drawRowFrom, ih, drawPixel_vf_anyPixel]

end Sys2Proof.Machine
end

