-- ==== Sys2Proof/Laws/Operands.lean ====
section
/-! SUPPORT. The operand forms and flags as numbers, the key search, and the two branches of the key wait. -/

namespace Sys2Proof.Machine

/-! ## Operands as numbers -/

@[simp] theorem toNat_zext16 (nnn : Addr) : (zext16 nnn).toNat = nnn.toNat := by
  simp [zext16]
  omega

theorem toNat_lowNybble (a : Byte) : (lowNybble a).toNat = a.toNat % 16 := by
  simp [lowNybble]

theorem toNat_glyphAddr (p : Params) (a : Byte) :
    (glyphAddr p a).toNat = (p.fontBase.toNat + p.fontGlyphBytes * (a.toNat % 16)) % 2 ^ 16 := by
  rw [glyphAddr, BitVec.toNat_ofNat, toNat_lowNybble]

theorem toNat_indexPast (i : Word) (x : RegSel) :
    (indexPast i x).toNat = (i.toNat + x.toNat + 1) % 2 ^ 16 := by
  rw [indexPast, BitVec.toNat_ofNat]

theorem keyIsDown_lowNybble (keys : BitVec 16) (a : Byte) :
    keyIsDown keys (lowNybble a) = keys.getLsbD (a.toNat % 16) := by
  rw [keyIsDown, toNat_lowNybble]

/-! ## Flags as numbers -/

theorem toNat_flagByte (c : Bool) : (flagByte c).toNat = if c = true then 1 else 0 := by
  cases c <;> rfl

theorem flagByte_eq_one (c : Bool) : flagByte c = 1 ↔ c = true := by
  cases c <;> decide

theorem flagByte_zero_or_one (c : Bool) : flagByte c = 0 ∨ flagByte c = 1 := by
  cases c <;> decide

/-! ## The lowest key (R205) -/

/-- The search stops at the first key down. -/
theorem lowestKeyFrom_eq {keys : BitVec 16} {k j count : Nat} (hd : keys.getLsbD k = true)
    (hj : j ≤ k) (hk : k < j + count) (hlow : ∀ l, j ≤ l → l < k → keys.getLsbD l = false) :
    lowestKeyFrom keys j count = k := by
  induction count generalizing j with
  | zero => omega
  | succ n ih =>
    unfold lowestKeyFrom
    by_cases hjk : j = k
    · simp [hjk, hd]
    · rw [hlow j (Nat.le_refl _) (by omega)]
      exact ih (by omega) (by omega) (fun l hl => hlow l (by omega))

/-! ## The key wait -/

/-- With no key down the instruction runs again. -/
theorem execLdVxK_noKey {s : State} (x : RegSel) (h : s.keyDown = 0) :
    execLdVxK x s = s.complete (.jump s.pc) := by
  rw [execLdVxK, State.takeKey, keyWait, if_pos h, if_pos h]

/-- With a key down it takes the lowest one. -/
theorem execLdVxK_key {s : State} (x : RegSel) (h : s.keyDown ≠ 0) :
    execLdVxK x s = (s.setReg x (lowestKey s.keyDown)).complete .advance := by
  rw [execLdVxK, State.takeKey, keyWait, if_neg h, if_neg h]

end Sys2Proof.Machine
end

