-- ==== Sys2Proof/Laws/Exec.lean ====
section
/-! SUPPORT. What a handler can answer, said once: the raises with their causes, the frames of the shapes a
completed handler has, and the case split of `exec`. -/

namespace Sys2Proof.Machine

/-! ## The directives as PC values -/

theorem resolvePc_advance (s : State) : resolvePc s.params .advance s.pc = pcPlus s 2 := rfl

theorem resolvePc_skipIf (s : State) (c : Bool) :
    resolvePc s.params (skipIf c) s.pc = if c = true then pcPlus s 4 else pcPlus s 2 := by
  cases c <;> rfl

/-! ## Frames of the shapes a completed handler has -/

theorem Frame.ofPc (s : State) (p : Nat) : Frame noReg noByte [] s (s.setPc p) :=
  ⟨fun _ _ => rfl, fun _ _ => rfl, by simp⟩

theorem Frame.ofReg (s : State) (x : RegSel) (b : Byte) (p : Nat) :
    Frame (· = x) noByte [] s ((s.setReg x b).setPc p) :=
  ⟨fun _ hr => State.reg_setReg_ne hr, fun _ _ => rfl, by simp⟩

theorem Frame.ofRegAndFlag (s : State) (x : RegSel) (b : Byte) (f : Bool) (p : Nat) :
    Frame (fun r => r = x ∨ r = 0xF) noByte [] s ((s.setRegAndFlag x b f).setPc p) := by
  refine ⟨fun r hr => ?_, fun _ _ => rfl, by simp⟩
  simp only [not_or] at hr
  rw [State.reg_setPc, State.reg_setRegAndFlag, if_neg hr.2, if_neg hr.1]

theorem Frame.ofIndex (s : State) (w : Word) (p : Nat) :
    Frame noReg noByte [.index] s ((s.setIndex w).setPc p) :=
  ⟨fun _ _ => rfl, fun _ _ => rfl, by simp⟩

theorem Frame.ofEvent (s : State) (e : Event) (p : Nat) :
    Frame noReg noByte [.output] s ((s.emit e).setPc p) :=
  ⟨fun _ _ => rfl, fun _ _ => rfl, by simp⟩

/-! ## The handlers that may raise, on either side of their condition -/

theorem execRet_empty {s : State} (h : s.sp = 0) : execRet s = .next (s.setFault .stackUnderflow) := by
  rw [execRet, State.pop_none h, State.raise_eq]

theorem execRet_some {s : State} (h : 0 < s.sp.val) :
    execRet s = .next ((s.setStack s.stack ⟨s.sp.val - 1, by have := s.sp.isLt; omega⟩).setPc
      (wrapPc s.params (s.stack[s.sp.val - 1]'(by have := s.sp.isLt; omega)).toNat)) := by
  rw [execRet, State.pop_some h]; rfl

theorem execCall_full {s : State} (nnn : Addr) (h : s.sp = 16) :
    execCall nnn s = .next (s.setFault .stackOverflow) := by
  rw [execCall, State.push_none h, State.raise_eq]

theorem execCall_some {s : State} (nnn : Addr) (h : s.sp.val < 16) :
    execCall nnn s = .next ((s.setStack
      (s.stack.set s.sp.val (BitVec.ofNat 16 (wrapPc s.params (s.pc + 2))) h)
      ⟨s.sp.val + 1, Nat.succ_lt_succ h⟩).setPc (wrapPc s.params nnn.toNat)) := by
  rw [execCall, State.push_some h, ← toNat_zext16]; rfl

/-- The addresses of an access that raises nothing, in order. -/
theorem State.dataAddrs_inside {s : State} {n : Nat} (h : s.accessInside n) :
    s.dataAddrs n = some ((List.range n).map s.indexed) := State.dataAddrs_some h

theorem State.dataAddrs_outside {s : State} {n : Nat} (h : ¬ s.accessInside n) : s.dataAddrs n = none :=
  State.dataAddrs_none h

/-- The addresses of one access are distinct. -/
theorem State.nodup_indexed (s : State) {n : Nat} (h : n ≤ 4096) : ((List.range n).map s.indexed).Nodup :=
  nodup_addrs h

/-- Some byte of an access that raises lies at 4096 or above, under `Fault`. -/
theorem State.not_accessInside {s : State} {n : Nat} :
    ¬ s.accessInside n ↔ n ≠ 0 ∧ 4096 < s.i.toNat + n ∧ s.params.dataOob = .fault := by
  unfold State.accessInside
  cases h : s.params.dataOob <;> simp

theorem execLdBVx_outside {s : State} (x : RegSel) (h : ¬ s.accessInside 3) :
    execLdBVx x s = .next (s.setFault .memBounds) := by
  rw [execLdBVx, State.dataAddrs_outside h, State.raise_eq]

theorem execLdBVx_inside {s : State} (x : RegSel) (h : s.accessInside 3) :
    execLdBVx x s = .next
      ((s.writeBytes (((List.range 3).map s.indexed).zip (bcdDigits (s.reg x)))).setPc (pcPlus s 2)) := by
  rw [execLdBVx, State.dataAddrs_inside h]
  simp [State.complete_eq, resolvePc, wrapPc, pcPlus]

theorem execLdMemVx_outside {s : State} (x : RegSel) (h : ¬ s.accessInside (x.toNat + 1)) :
    execLdMemVx x s = .next (s.setFault .memBounds) := by
  rw [execLdMemVx, State.dataAddrs_outside h, State.raise_eq]

theorem execLdMemVx_inside {s : State} (x : RegSel) (h : s.accessInside (x.toNat + 1)) :
    execLdMemVx x s = .next (((s.writeBytes
      (((List.range (x.toNat + 1)).map s.indexed).zip (s.regsFrom 0 (x.toNat + 1)))).setIndex
        (indexPast s.i x)).setPc (pcPlus s 2)) := by
  rw [execLdMemVx, State.dataAddrs_inside h]
  simp [State.complete_eq, resolvePc, wrapPc, pcPlus]

theorem execLdVxMem_outside {s : State} (x : RegSel) (h : ¬ s.accessInside (x.toNat + 1)) :
    execLdVxMem x s = .next (s.setFault .memBounds) := by
  rw [execLdVxMem, State.dataAddrs_outside h, State.raise_eq]

theorem execLdVxMem_inside {s : State} (x : RegSel) (h : s.accessInside (x.toNat + 1)) :
    execLdVxMem x s = .next (((s.setRegsFrom 0
      (((List.range (x.toNat + 1)).map s.indexed).map s.readByte)).setIndex
        (indexPast s.i x)).setPc (pcPlus s 2)) := by
  rw [execLdVxMem, State.dataAddrs_inside h]
  simp [State.complete_eq, resolvePc, wrapPc, pcPlus]

theorem execDrw_outside {s : State} (x y : RegSel) (n : Nybble) (h : ¬ s.accessInside n.toNat) :
    execDrw x y n s = .next (s.setFault .memBounds) := by
  rw [execDrw, State.dataAddrs_outside h, State.raise_eq]

/-- The compositor after a draw, from the state before it. -/
theorem execDrw_inside {s : State} (x y : RegSel) (n : Nybble) (h : s.accessInside n.toNat) :
    execDrw x y n s =
      (let c := drawRowsFrom s.params.collision (s.reg x) (s.reg y) 0 (s.spriteRows n.toNat)
        { fb := s.fb, vf := s.reg flagReg, any := false }
      .next (((s.setReg flagReg (collisionFlag s.params.collision c)).setDisplay c.fb).setPc
        (pcPlus s 2))) := by
  rw [execDrw, State.dataAddrs_inside h]
  simp only [State.complete_eq, resolvePc, wrapPc, pcPlus, List.map_map]
  rfl

/-! ## Everything a handler can answer -/

/-- The condition under which an instruction raises a cause (R221). -/
def raisesCause (i : Instr) (s : State) : FaultCode → Prop
  | .none => False
  | .stackOverflow => (∃ nnn, i = .call nnn) ∧ s.sp = 16
  | .stackUnderflow => i = .ret ∧ s.sp = 0
  | .memBounds => ∃ n, dataBytes i = some n ∧ ¬ s.accessInside n
  | .fetchBounds => False

/-- A handler raises, with a cause R221 gives it, and then writes FAULT alone; or it completes, with no
such cause, and keeps OP, FAULT, the parameters, the lined-up port values and the counter. -/
theorem exec_cases (i : Instr) (s : State) :
    (∃ c, raisesCause i s c ∧ exec i s = .next (s.setFault c)) ∨
    ((∀ c, ¬ raisesCause i s c) ∧ ∃ (t : State) (d : Directive), exec i s = .next (t.setPc (resolvePc s.params d s.pc)) ∧
      t.op = s.op ∧ t.fault = s.fault ∧ t.params = s.params ∧ t.inputs = s.inputs ∧ t.tick = s.tick) := by
  have quiet : dataBytes i = none → (∀ nnn, i ≠ .call nnn) → i ≠ .ret → ∀ c, ¬ raisesCause i s c := by
    intro hd hc hr c h
    cases c <;> simp_all [raisesCause]
  have access : ∀ n, dataBytes i = some n → s.accessInside n → ∀ c, ¬ raisesCause i s c := by
    intro n hd ha c h
    cases c <;> simp [raisesCause] at h
    · obtain ⟨⟨nnn, rfl⟩, _⟩ := h; simp [dataBytes] at hd
    · obtain ⟨rfl, _⟩ := h; simp [dataBytes] at hd
    · obtain ⟨m, hm, h⟩ := h
      rw [hd] at hm; cases hm; exact h ha
  cases i
  case ret =>
    by_cases h : 0 < s.sp.val
    · refine .inr ⟨fun c hc => ?_, _, .jump (s.stack[s.sp.val - 1]'(by have := s.sp.isLt; omega)).toNat,
        execRet_some h, by simp⟩
      cases c <;> simp [raisesCause, dataBytes] at hc
      rw [hc] at h; exact absurd h (by decide)
    · have h0 : s.sp = 0 := Fin.ext (by simp; omega)
      exact .inl ⟨.stackUnderflow, ⟨rfl, h0⟩, execRet_empty h0⟩
  case call nnn =>
    by_cases h : s.sp.val < 16
    · refine .inr ⟨fun c hc => ?_, _, .jump nnn.toNat, execCall_some nnn h, by simp⟩
      cases c <;> simp [raisesCause, dataBytes] at hc
      rw [hc] at h; exact absurd h (by decide)
    · have h16 : s.sp = 16 := Fin.ext (by have := s.sp.isLt; simp; omega)
      exact .inl ⟨.stackOverflow, ⟨⟨nnn, rfl⟩, h16⟩, execCall_full nnn h16⟩
  case ldBVx x =>
    by_cases h : s.accessInside 3
    · exact .inr ⟨access 3 rfl h, _, .advance, execLdBVx_inside x h, by simp⟩
    · exact .inl ⟨.memBounds, ⟨3, rfl, h⟩, execLdBVx_outside x h⟩
  case ldMemVx x =>
    by_cases h : s.accessInside (x.toNat + 1)
    · exact .inr ⟨access _ rfl h, _, .advance, execLdMemVx_inside x h, by simp⟩
    · exact .inl ⟨.memBounds, ⟨_, rfl, h⟩, execLdMemVx_outside x h⟩
  case ldVxMem x =>
    by_cases h : s.accessInside (x.toNat + 1)
    · exact .inr ⟨access _ rfl h, _, .advance, execLdVxMem_inside x h, by simp⟩
    · exact .inl ⟨.memBounds, ⟨_, rfl, h⟩, execLdVxMem_outside x h⟩
  case drw x y n =>
    by_cases h : s.accessInside n.toNat
    · exact .inr ⟨access _ rfl h, _, .advance, execDrw_inside x y n h, by simp⟩
    · exact .inl ⟨.memBounds, ⟨_, rfl, h⟩, execDrw_outside x y n h⟩
  case ldVxK x =>
    refine .inr ⟨quiet rfl (by simp) (by simp), s.takeKey x, keyWait s, ?_, ?_⟩
    · show execLdVxK x s = _
      rw [execLdVxK, State.complete_eq]
      unfold State.takeKey
      split <;> rfl
    · unfold State.takeKey
      split <;> simp
  all_goals
    exact .inr ⟨quiet rfl (by simp) (by simp), _, _, rfl, by simp⟩

end Sys2Proof.Machine
end

