-- ==== Sys2Proof/Laws/PerInstr.lean ====
section
/-! SUPPORT. Per instruction: the word an instruction is encoded as lies under its row's mask at its row's match
(30_encoding.md R88). -/

namespace Sys2Proof

/-! ## Masking an assembled word -/

theorem and_append_append {n m : Nat} (a b : BitVec n) (c d : BitVec m) :
    (a ++ c) &&& (b ++ d) = (a &&& b) ++ (c &&& d) :=
  BitVec.and_append

/-- A mask of nybbles acts nybble by nybble. -/
theorem and_wordOfNybbles (a b c d e f g h : Nybble) :
    wordOfNybbles a b c d &&& wordOfNybbles e f g h =
      wordOfNybbles (a &&& e) (b &&& f) (c &&& g) (d &&& h) := by
  have key : (a ++ b ++ c ++ d) &&& (e ++ f ++ g ++ h) = (a &&& e) ++ (b &&& f) ++ (c &&& g) ++ (d &&& h) := by
    rw [and_append_append, and_append_append, and_append_append]
  exact key

theorem and_ones (a : Nybble) : a &&& 0xF = a := by
  revert a
  decide

theorem and_zeros (a : Nybble) : a &&& 0x0 = 0 := by
  revert a
  decide

theorem mask_class (a b c d : Nybble) : wordOfNybbles a b c d &&& 0xF000 = wordOfNybbles a 0 0 0 := by
  have hm : wordOfNybbles 0xF 0x0 0x0 0x0 = 0xF000 := by decide
  rw [← hm, and_wordOfNybbles]
  simp only [and_ones, and_zeros]

theorem mask_class_n (a b c d : Nybble) : wordOfNybbles a b c d &&& 0xF00F = wordOfNybbles a 0 0 d := by
  have hm : wordOfNybbles 0xF 0x0 0x0 0xF = 0xF00F := by decide
  rw [← hm, and_wordOfNybbles]
  simp only [and_ones, and_zeros]

theorem mask_class_nn (a b c d : Nybble) : wordOfNybbles a b c d &&& 0xF0FF = wordOfNybbles a 0 c d := by
  have hm : wordOfNybbles 0xF 0x0 0xF 0xF = 0xF0FF := by decide
  rw [← hm, and_wordOfNybbles]
  simp only [and_ones, and_zeros]

/-- An address word as four nybbles. -/
theorem wordOfAddr_eq (a : Nybble) (nnn : Addr) :
    wordOfAddr a nnn =
      wordOfNybbles a (fieldX (wordOfAddr a nnn)) (fieldY (wordOfAddr a nnn)) (fieldN (wordOfAddr a nnn)) := by
  have h := wordOfNybbles_fields (wordOfAddr a nnn)
  rw [fieldN1_wordOfAddr] at h
  exact h.symm

/-- An immediate word as four nybbles. -/
theorem wordOfImm_eq (a : Nybble) (x : RegSel) (nn : Byte) :
    wordOfImm a x nn = wordOfNybbles a x (nn.extractLsb' 4 4) (nn.extractLsb' 0 4) := by
  have h := wordOfNybbles_fields (wordOfImm a x nn)
  rw [fieldN1_wordOfImm, fieldX_wordOfImm, fieldY_wordOfImm, fieldN_wordOfImm] at h
  exact h.symm

namespace Laws.MaskMatch

open Machine

/-- The encoded word agrees with the mask and match of the instruction's row (R88). -/
def Statement (i : Instr) : Prop := encode i &&& opcodeMask i = opcodeMatch i

theorem addrRow (a : Nybble) (nnn : Addr) : wordOfAddr a nnn &&& 0xF000 = wordOfNybbles a 0 0 0 := by
  rw [wordOfAddr_eq, mask_class]

theorem immRow (a : Nybble) (x : RegSel) (nn : Byte) : wordOfImm a x nn &&& 0xF000 = wordOfNybbles a 0 0 0 := by
  rw [wordOfImm_eq, mask_class]

theorem subRow (a : Nybble) (x : RegSel) (nn : Byte) :
    wordOfImm a x nn &&& 0xF0FF = wordOfNybbles a 0 (nn.extractLsb' 4 4) (nn.extractLsb' 0 4) := by
  rw [wordOfImm_eq, mask_class_nn]

theorem cls : Statement .cls := by
  unfold Statement
  decide
theorem ret : Statement .ret := by
  unfold Statement
  decide
theorem sys (nnn : Addr) : Statement (.sys nnn) := addrRow 0x0 nnn
theorem jp (nnn : Addr) : Statement (.jp nnn) := addrRow 0x1 nnn
theorem call (nnn : Addr) : Statement (.call nnn) := addrRow 0x2 nnn
theorem seVxNN (x : RegSel) (nn : Byte) : Statement (.seVxNN x nn) := immRow 0x3 x nn
theorem sneVxNN (x : RegSel) (nn : Byte) : Statement (.sneVxNN x nn) := immRow 0x4 x nn
theorem seVxVy (x y : RegSel) : Statement (.seVxVy x y) := mask_class_n 0x5 x y 0x0
theorem ldVxNN (x : RegSel) (nn : Byte) : Statement (.ldVxNN x nn) := immRow 0x6 x nn
theorem addVxNN (x : RegSel) (nn : Byte) : Statement (.addVxNN x nn) := immRow 0x7 x nn
theorem ldVxVy (x y : RegSel) : Statement (.ldVxVy x y) := mask_class_n 0x8 x y 0x0
theorem orVxVy (x y : RegSel) : Statement (.orVxVy x y) := mask_class_n 0x8 x y 0x1
theorem andVxVy (x y : RegSel) : Statement (.andVxVy x y) := mask_class_n 0x8 x y 0x2
theorem xorVxVy (x y : RegSel) : Statement (.xorVxVy x y) := mask_class_n 0x8 x y 0x3
theorem addVxVy (x y : RegSel) : Statement (.addVxVy x y) := mask_class_n 0x8 x y 0x4
theorem subVxVy (x y : RegSel) : Statement (.subVxVy x y) := mask_class_n 0x8 x y 0x5
theorem shrVxVy (x y : RegSel) : Statement (.shrVxVy x y) := mask_class_n 0x8 x y 0x6
theorem subnVxVy (x y : RegSel) : Statement (.subnVxVy x y) := mask_class_n 0x8 x y 0x7
theorem shlVxVy (x y : RegSel) : Statement (.shlVxVy x y) := mask_class_n 0x8 x y 0xE
theorem sneVxVy (x y : RegSel) : Statement (.sneVxVy x y) := mask_class_n 0x9 x y 0x0
theorem ldI (nnn : Addr) : Statement (.ldI nnn) := addrRow 0xA nnn
theorem jpV0 (nnn : Addr) : Statement (.jpV0 nnn) := addrRow 0xB nnn
theorem rnd (x : RegSel) (nn : Byte) : Statement (.rnd x nn) := immRow 0xC x nn
theorem drw (x y : RegSel) (n : Nybble) : Statement (.drw x y n) := mask_class 0xD x y n
theorem skp (x : RegSel) : Statement (.skp x) := subRow 0xE x 0x9E
theorem sknp (x : RegSel) : Statement (.sknp x) := subRow 0xE x 0xA1
theorem ldVxDT (x : RegSel) : Statement (.ldVxDT x) := subRow 0xF x 0x07
theorem ldVxK (x : RegSel) : Statement (.ldVxK x) := subRow 0xF x 0x0A
theorem ldDTVx (x : RegSel) : Statement (.ldDTVx x) := subRow 0xF x 0x15
theorem ldSTVx (x : RegSel) : Statement (.ldSTVx x) := subRow 0xF x 0x18
theorem addIVx (x : RegSel) : Statement (.addIVx x) := subRow 0xF x 0x1E
theorem ldFVx (x : RegSel) : Statement (.ldFVx x) := subRow 0xF x 0x29
theorem ldBVx (x : RegSel) : Statement (.ldBVx x) := subRow 0xF x 0x33
theorem ldMemVx (x : RegSel) : Statement (.ldMemVx x) := subRow 0xF x 0x55
theorem ldVxMem (x : RegSel) : Statement (.ldVxMem x) := subRow 0xF x 0x65

end Laws.MaskMatch

end Sys2Proof
end

