-- ==== Sys2Proof/Tests/Slice0.lean ====
section
/-! SUPPORT. Tests. Expected values are those of spec/95_test_vectors.md (L1-1, F-1, C-1, A-1, M-1, D-1, K-1, H-1 and
so on name its rows) and of the examples and encodings of the rules; the witnesses meet the hypotheses of
the statements. -/

namespace Sys2Proof.Machine

/-- A state with registers set. -/
def State.regs (s : State) (l : List (RegSel × Byte)) : State := l.foldl (fun s p => s.setReg p.1 p.2) s

/-- A state with memory bytes set. -/
def State.bytes (s : State) (l : List (Addr × Byte)) : State := s.writeBytes l

/-- A state with one pixel lit. -/
def State.lit (s : State) (x : Fin 64) (y : Fin 32) : State := { s with fb := setPixelOf s.fb x y true }

/-- A state with the ports' values of the next step lined up. -/
def State.ports (s : State) (keys : BitVec 16) (delay rand : Byte) : State := s.present [⟨keys, delay, rand⟩]

/-- A state with parameters changed. -/
def State.wrapping (s : State) : State := { s with params := { s.params with dataOob := .wrap } }

/-- A state with FETCH_OOB_POLICY = Fault. -/
def State.fetchFaulting (s : State) : State := { s with params := { s.params with fetchOob := .fault } }

/-- A state with COLLISION_MODE = AnyPixel. -/
def State.anyPixel (s : State) : State := { s with params := { s.params with collision := .anyPixel } }

/-- A state with a stack pointer set. -/
def State.depth (s : State) (k : Fin 17) : State := { s with sp := k }

end Sys2Proof.Machine

namespace Sys2Proof.Tests

open Sys2Proof.Machine

/-- The start of a vector: reset, with a word at PC = 0x200. -/
def boot (w : Word) : State := State.reset.placeWord w

/-- The state after one step. -/
def after (s : State) : State :=
  match step s with
  | .next t => t
  | .fault _ => s
  | .refused _ => s

/-- What a handler leaves, where it answers a next state. -/
def run (i : Instr) (s : State) : State :=
  match exec i s with
  | .next t => t
  | .fault _ => s
  | .refused _ => s

/-- The answer is a next state. -/
def isNext : Result → Bool
  | .next _ => true
  | .fault _ => false
  | .refused _ => false

theorem exec_run {i : Instr} {s : State} (h : isNext (exec i s) = true) : exec i s = .next (run i s) := by
  unfold run
  revert h
  cases exec i s <;> simp [isNext]

theorem step_after {s : State} (h : isNext (step s) = true) : step s = .next (after s) := by
  unfold after
  revert h
  cases step s <;> simp [isNext]

/-! ## Well-formedness (R83, R121) -/

theorem test_illformed_sys_cls : (Instr.sys 0x0E0).wellFormed = false := by decide
theorem test_illformed_sys_ret : (Instr.sys 0x0EE).wellFormed = false := by decide
theorem test_wellformed_sys : (Instr.sys 0x0E1).wellFormed = true ∧ (Instr.sys 0x000).wellFormed = true := by decide

/-! ## Decoding: words written out from the patterns of R87 -/

theorem test_decode_control :
    decode 0x00EE = .ok .ret ∧ decode 0x0123 = .ok (.sys 0x123) ∧ decode 0x1ABC = .ok (.jp 0xABC) ∧
    decode 0x2300 = .ok (.call 0x300) ∧ decode 0x3310 = .ok (.seVxNN 3 0x10) ∧
    decode 0x4A7F = .ok (.sneVxNN 0xA 0x7F) ∧ decode 0x5120 = .ok (.seVxVy 1 2) ∧
    decode 0x9120 = .ok (.sneVxVy 1 2) ∧ decode 0xB345 = .ok (.jpV0 0x345) := by decide

theorem test_decode_alu :
    decode 0x614E = .ok (.ldVxNN 1 0x4E) ∧ decode 0x7202 = .ok (.addVxNN 2 0x02) ∧
    decode 0x8120 = .ok (.ldVxVy 1 2) ∧ decode 0x8121 = .ok (.orVxVy 1 2) ∧
    decode 0x8122 = .ok (.andVxVy 1 2) ∧ decode 0x8123 = .ok (.xorVxVy 1 2) ∧
    decode 0x8124 = .ok (.addVxVy 1 2) ∧ decode 0x8125 = .ok (.subVxVy 1 2) ∧
    decode 0x8126 = .ok (.shrVxVy 1 2) ∧ decode 0x8127 = .ok (.subnVxVy 1 2) ∧
    decode 0x812E = .ok (.shlVxVy 1 2) := by decide

theorem test_decode_index :
    decode 0xA2F0 = .ok (.ldI 0x2F0) ∧ decode 0xF41E = .ok (.addIVx 4) ∧ decode 0xF229 = .ok (.ldFVx 2) ∧
    decode 0xF333 = .ok (.ldBVx 3) ∧ decode 0xF155 = .ok (.ldMemVx 1) ∧ decode 0xF165 = .ok (.ldVxMem 1) := by decide

theorem test_decode_display : decode 0x00E0 = .ok .cls ∧ decode 0xD123 = .ok (.drw 1 2 3) := by decide

theorem test_decode_collaborator :
    decode 0xE59E = .ok (.skp 5) ∧ decode 0xE5A1 = .ok (.sknp 5) ∧ decode 0xC30F = .ok (.rnd 3 0x0F) ∧
    decode 0xF207 = .ok (.ldVxDT 2) ∧ decode 0xF30A = .ok (.ldVxK 3) ∧ decode 0xF115 = .ok (.ldDTVx 1) ∧
    decode 0xF118 = .ok (.ldSTVx 1) := by decide

/-- Rows F-8 to F-13. -/
theorem test_decode_unknown :
    decode 0x5121 = .error (.noPattern 0x5121) ∧ decode 0x8008 = .error (.noPattern 0x8008) ∧
    decode 0x801F = .error (.noPattern 0x801F) ∧ decode 0x9011 = .error (.noPattern 0x9011) ∧
    decode 0xE000 = .error (.noPattern 0xE000) ∧ decode 0xF0FF = .error (.noPattern 0xF0FF) := by decide

theorem test_decode_bytes :
    decodeBytes [0x61, 0x4E, 0x00] = .ok (.ldVxNN 1 0x4E, [0x00]) ∧ decodeBytes [0x61] = .error .truncated ∧
    decodeTableWord 16 0x614E = some (.ldVxNN 1 0x4E) ∧ decodeTableWord 16 0x5121 = none := by decide

/-! ## Fetch and PC (L2.1) -/

theorem test_fetch_top :
    (after ((State.reset.bytes [(0xFFE, 0x12), (0xFFF, 0x34)]).setPc 0xFFE)).pc = 0x234 ∧
    (after (State.reset.setPc 0xFFF)).pc = 0x1001 ∧ (after (State.reset.setPc 0xFFF)).out = [.sysReq 0x000] := by decide

theorem test_fetch_fault :
    let t := after ((State.reset.latchOpcode 0x1FFF).fetchFaulting.setPc 0xFFF)
    faultStatusCode t.fault = 4 ∧ t.pc = 0xFFF ∧ t.op = 0x1FFF ∧ t.out = [] := by decide

theorem test_pc_wrap :
    (after (State.reset.setPc 0xFFFE)).pc = 0x0000 ∧ (after (State.reset.setPc 0xFFFF)).pc = 0x0001 := by decide

theorem test_odd_pc :
    let t := after ((State.reset.bytes [(0x201, 0x60), (0x202, 0x07)]).setPc 0x201)
    t.op = 0x6007 ∧ t.reg 0 = 0x07 ∧ t.pc = 0x203 := by decide

theorem test_unknown_word :
    let t := after (boot 0x5121)
    t.pc = 0x202 ∧ t.op = 0x5121 ∧ t.out = [] ∧ t.v = State.reset.v := by decide

theorem test_faulted_step :
    let t := after ((boot 0x614E).setFault .stackOverflow)
    t.op = 0x0000 ∧ t.pc = 0x200 ∧ t.reg 1 = 0x00 ∧ faultStatusCode t.fault = 1 := by decide

/-! ## Control flow (L2.2) -/

theorem test_sys : (after (boot 0x0123)).out = [.sysReq 0x123] ∧ (after (boot 0x0123)).pc = 0x202 := by decide
theorem test_call :
    let t := after ((boot 0x2400).depth 15)
    t.stack[15] = 0x0202 ∧ t.sp = 16 ∧ t.pc = 0x400 := by decide
theorem test_call_full :
    let t := after ((boot 0x2400).depth 16)
    faultStatusCode t.fault = 1 ∧ t.pc = 0x200 ∧ t.sp = 16 ∧ t.op = 0x2400 := by decide
theorem test_ret :
    let t := after ((boot 0x00EE).setStack (State.reset.stack.set 0 0x0204) 1)
    t.sp = 0 ∧ t.pc = 0x204 ∧ t.stack[0] = 0x0204 := by decide
theorem test_ret_empty :
    faultStatusCode (after (boot 0x00EE)).fault = 2 ∧ (after (boot 0x00EE)).pc = 0x200 := by decide
theorem test_jp : (after (boot 0x1ABC)).pc = 0xABC ∧ (after (boot 0x1FFF)).pc = 0xFFF := by decide
theorem test_se_imm :
    (after ((boot 0x3310).regs [(3, 0x10)])).pc = 0x204 ∧ (after ((boot 0x3310).regs [(3, 0x11)])).pc = 0x202 := by decide
theorem test_sne_imm :
    (after ((boot 0x4310).regs [(3, 0x10)])).pc = 0x202 ∧ (after (boot 0x4310)).pc = 0x204 := by decide
theorem test_se_reg :
    (after ((boot 0x5010).regs [(0, 1), (1, 1)])).pc = 0x204 ∧
    (after ((boot 0x5010).regs [(0, 1), (1, 2)])).pc = 0x202 := by decide
theorem test_sne_reg :
    (after ((boot 0x9010).regs [(0, 1), (1, 2)])).pc = 0x204 ∧ (after (boot 0x9440)).pc = 0x202 := by decide
theorem test_jp_v0 :
    (after ((boot 0xBFFF).regs [(0, 0xFF)])).pc = 0x10FE ∧
    (after ((boot 0xB500).regs [(0, 0x02), (5, 0x80)])).pc = 0x502 := by decide

/-! ## ALU (L2.3) -/

theorem test_ld_imm : (after (boot 0x614E)).reg 1 = 0x4E ∧ (after (boot 0x614E)).pc = 0x202 := by decide
theorem test_add_imm :
    let t := after ((boot 0x7202).regs [(2, 0xFF)])
    t.reg 2 = 0x01 ∧ t.reg 0xF = 0x00 := by decide
theorem test_ld_reg : (after ((boot 0x8120).regs [(1, 0x33), (2, 0x44)])).reg 1 = 0x44 := by decide
theorem test_or : (after ((boot 0x8121).regs [(1, 0xAA), (2, 0x55)])).reg 1 = 0xFF := by decide
theorem test_and : (after ((boot 0x8122).regs [(1, 0xFF), (2, 0x01)])).reg 1 = 0x01 := by decide
theorem test_xor : (after ((boot 0x8123).regs [(1, 0x05), (2, 0x07)])).reg 1 = 0x02 := by decide
theorem test_add_carry :
    let t := after ((boot 0x8124).regs [(1, 0xFF), (2, 0x01)])
    t.reg 1 = 0x00 ∧ t.reg 0xF = 1 := by decide
theorem test_add_flag_last : (after ((boot 0x8F14).regs [(0xF, 0x80), (1, 0x80)])).reg 0xF = 1 := by decide
theorem test_sub_borrow :
    let t := after ((boot 0x8125).regs [(1, 0x05), (2, 0x07)])
    t.reg 1 = 0xFE ∧ t.reg 0xF = 0 := by decide
theorem test_sub_equal :
    let t := after ((boot 0x8115).regs [(1, 0x42)])
    t.reg 1 = 0x00 ∧ t.reg 0xF = 1 := by decide
theorem test_shr_source :
    let t := after ((boot 0x8126).regs [(1, 0x55), (2, 0x03)])
    t.reg 1 = 0x01 ∧ t.reg 0xF = 1 := by decide
theorem test_shr_flag_last : (after ((boot 0x8FF6).regs [(0xF, 0x02)])).reg 0xF = 0 := by decide
theorem test_subn :
    let t := after ((boot 0x8127).regs [(1, 0xFF), (2, 0x01)])
    t.reg 1 = 0x02 ∧ t.reg 0xF = 0 := by decide
theorem test_shl :
    let t := after ((boot 0x812E).regs [(1, 0xAA), (2, 0x55)])
    t.reg 1 = 0xAA ∧ t.reg 0xF = 0 := by decide
theorem test_shl_flag_last : (after ((boot 0x8FFE).regs [(0xF, 0x81)])).reg 0xF = 1 := by decide

/-! ## Index and memory (L2.4) -/

theorem test_ld_i : (after ((boot 0xA000).setIndex 0xF123)).i = 0x0000 ∧ (after (boot 0xA2F0)).i = 0x02F0 := by decide
theorem test_add_i :
    (after (((boot 0xF41E).setIndex 0xFFFF).regs [(4, 0x01)])).i = 0x0000 ∧
    (after (((boot 0xF41E).setIndex 0x0FFF).regs [(4, 0x01)])).i = 0x1000 := by decide
theorem test_ld_f :
    (after ((boot 0xF229).regs [(2, 0x0B)])).i = 0x0037 ∧ (after ((boot 0xF229).regs [(2, 0x1A)])).i = 0x0032 := by decide
theorem test_bcd :
    let t := after (((boot 0xF333).setIndex 0xFFD).regs [(3, 0xFF)])
    t.readByte 0xFFD = 2 ∧ t.readByte 0xFFE = 5 ∧ t.readByte 0xFFF = 5 ∧ t.i = 0xFFD := by decide
theorem test_bcd_bounds :
    let t := after (((boot 0xF333).setIndex 0xFFE).regs [(3, 0xFF)])
    let u := after (((boot 0xF333).setIndex 0xFFF).regs [(3, 0xFF)]).wrapping
    faultStatusCode t.fault = 3 ∧ t.readByte 0xFFE = 0 ∧ t.readByte 0xFFF = 0 ∧ t.pc = 0x200 ∧
    u.readByte 0xFFF = 2 ∧ u.readByte 0x000 = 5 ∧ u.readByte 0x001 = 5 ∧ u.pc = 0x202 := by decide
theorem test_dump :
    let t := after (((boot 0xF155).setIndex 0xFFE).regs [(0, 5), (1, 6)])
    t.readByte 0xFFE = 5 ∧ t.readByte 0xFFF = 6 ∧ t.i = 0x1000 ∧ t.fault = .none := by decide
theorem test_dump_bounds :
    let t := after (((boot 0xFF55).setIndex 0xFF1).regs [(0, 5)])
    faultStatusCode t.fault = 3 ∧ t.readByte 0xFF1 = 0 ∧ t.i = 0xFF1 := by decide
theorem test_load :
    let t := after (((boot 0xF165).setIndex 0x300).bytes [(0x300, 7), (0x301, 9), (0x302, 8)])
    t.reg 0 = 7 ∧ t.reg 1 = 9 ∧ t.reg 2 = 0 ∧ t.i = 0x302 := by decide
theorem test_load_bounds :
    let t := after ((boot 0xF065).setIndex 0x1000)
    faultStatusCode t.fault = 3 ∧ t.reg 0 = 0 ∧ t.i = 0x1000 := by decide

/-! ## Display (L2.5) -/

theorem test_cls :
    let t := after ((boot 0x00E0).lit 5 6)
    t.pixel 5 6 = false ∧ t.chg = true ∧ t.out = [] := by decide
/-- Row D-6: the sprite wraps on both axes. -/
theorem test_drw_wrap :
    let t := after ((((boot 0xD012).setIndex 0x300).regs [(0, 59), (1, 31)]).bytes [(0x300, 0xFF), (0x301, 0xFF)])
    t.pixel 59 31 = true ∧ t.pixel 2 0 = true ∧ t.pixel 3 0 = false ∧ t.pixel 58 31 = false ∧
    t.pixel 63 0 = true ∧ t.reg 0xF = 0 ∧ t.chg = true := by decide
/-- Rows D-3, D-4 and D-8: the last pixel only, any pixel, and coordinates latched before V[F]. -/
theorem test_drw_collision :
    let s := (((boot 0xD012).setIndex 0x300).regs [(0xF, 7)]).bytes [(0x300, 0x80)]
    let u := after (((((boot 0xDF11).setIndex 0x300).regs [(0xF, 3)]).bytes [(0x300, 0x81)]).lit 10 0)
    (after (s.lit 0 0)).reg 0xF = 0 ∧ (after (s.lit 0 0).anyPixel).reg 0xF = 1 ∧
    (after (s.lit 0 0)).pixel 0 0 = false ∧ u.pixel 3 0 = true ∧ u.pixel 10 0 = false ∧ u.reg 0xF = 1 := by decide

/-! ## Collaborators (L2.6) -/

theorem test_skp :
    (after (((boot 0xE59E).regs [(5, 0x1A)]).ports 0x0400 0 0)).pc = 0x204 ∧
    (after (((boot 0xE59E).regs [(5, 0x0A)]).ports 0x0200 0 0)).pc = 0x202 := by decide
theorem test_sknp :
    (after (((boot 0xE5A1).regs [(5, 0x0A)]).ports 0x0000 0 0)).pc = 0x204 ∧
    (after (((boot 0xE5A1).regs [(5, 0x0A)]).ports 0xFFFF 0 0)).pc = 0x202 := by decide
theorem test_rnd : (after ((boot 0xC30F).ports 0 0 0xB7)).reg 3 = 0x07 := by decide
theorem test_ld_dt : (after ((boot 0xF207).ports 0 0x3C 0)).reg 2 = 0x3C := by decide
theorem test_ld_k :
    let t := after ((boot 0xF30A).ports 0x0028 0 0)
    t.reg 3 = 3 ∧ t.pc = 0x202 := by decide
theorem test_ld_k_waits :
    let t := after ((boot 0xF30A).ports 0x0000 0 0)
    t.reg 3 = 0 ∧ t.pc = 0x200 ∧ t.op = 0xF30A := by decide
theorem test_set_dt : (after ((boot 0xF115).regs [(1, 0x20)])).out = [.delayWr 0x20] := by decide
theorem test_set_st : (after ((boot 0xF118).regs [(1, 0x05)])).out = [.soundWr 0x05] := by decide

/-! ## Reset and host operations (L2.7) -/

theorem test_rst :
    let t := (((boot 0x614E).regs [(1, 9)]).setFault .memBounds).rst
    t.readByte 0x200 = 0 ∧ t.reg 1 = 0 ∧ t.pc = 0x200 ∧ faultStatusCode t.fault = 0 := by decide
theorem test_first_step_unloaded :
    let t := after State.reset
    t.op = 0x0000 ∧ t.out = [.sysReq 0x000] ∧ t.pc = 0x202 := by decide
theorem test_load_faulted :
    let t := (State.reset.setFault .stackOverflow).load [0x12, 0x00]
    t.readByte 0x200 = 0x12 ∧ t.readByte 0x201 = 0x00 ∧ faultStatusCode t.fault = 1 := by decide
theorem test_load_truncates : (State.reset.loadFrom 0xFFF [0xAB, 0xCD]).readByte 0xFFF = 0xAB ∧
    (State.reset.loadFrom 0xFFF [0xAB, 0xCD]).readByte 0x000 = 0 := by decide
theorem test_clear_change : (State.reset.setDisplay blankDisplay).clearChange.chg = false := by decide
theorem test_place_word :
    (State.reset.withFetchWord 16 0x614E).fetch = some 0x614E ∧
    (State.reset.withFetchWord 16 0x614E).pc = 0x200 := by decide

/-! ## Witnesses: concrete states and operands that meet the hypotheses of each statement -/

theorem test_witness_DecodeOfEncodeIsIdentity :
    (Instr.drw 0xF 0xF 0xF).wellFormed = true ∧ (Instr.sys 0xFFF).wellFormed = true := by decide

theorem test_witness_EncodeOfDecodeIsIdentity :
    decode 0xDFFF = .ok (.drw 0xF 0xF 0xF) ∧ decode 0x00E0 = .ok .cls := by decide

theorem test_witness_UnknownWordsRunAsNoOperation :
    (boot 0x5001).fault = .none ∧ (boot 0x5001).fetch = some 0x5001 ∧ matchesNothing 0x5001 ∧
    matchesNothing 0x8FF8 ∧ matchesNothing 0x800F ∧ matchesNothing 0x9FFF ∧ matchesNothing 0xE09D ∧
    matchesNothing 0xF000 ∧ matchesNothing 0xFFFF :=
  ⟨by decide, by decide, by simp [matchesNothing, noPatternFields], by simp [matchesNothing, noPatternFields],
    by simp [matchesNothing, noPatternFields], by simp [matchesNothing, noPatternFields],
    by simp [matchesNothing, noPatternFields], by simp [matchesNothing, noPatternFields],
    by simp [matchesNothing, noPatternFields]⟩

theorem test_witness_DecodedWordMatchesOneRow :
    decode 0x00E0 = .ok .cls ∧ 0x00E0#16 &&& opcodeMask (.sys 0) = opcodeMatch (.sys 0) ∧
    decode 0x8FF4 = .ok (.addVxVy 0xF 0xF) ∧ 0x8FF4#16 &&& opcodeMask (.addVxVy 0 0) = opcodeMatch (.addVxVy 0 0) := by
  decide

theorem test_witness_StepRunsDecodedInstruction :
    let s := (State.reset.bytes [(0xFFE, 0x12), (0xFFF, 0x34)]).setPc 0xFFE
    s.fault = .none ∧ s.pc + 1 < 4096 ∧
    decode (s.readByte (BitVec.ofNat 12 s.pc) ++ s.readByte (BitVec.ofNat 12 (s.pc + 1))) = .ok (.jp 0x234) := by
  decide

theorem test_witness_FetchReadsBigEndianWordOrPolicy :
    (State.reset.setPc 0xFFE).pc + 1 < 4096 ∧ 4096 ≤ (State.reset.setPc 0xFFF).pc + 1 ∧
    (State.reset.setPc 0xFFF).params.fetchOob = .substitute ∧
    4096 ≤ (State.reset.setPc 0xFFF).fetchFaulting.pc + 1 ∧
    (State.reset.setPc 0xFFF).fetchFaulting.params.fetchOob = .fault := by decide

theorem test_witness_OutOfBoundsStepRunsSysZero :
    (State.reset.setPc 0xFFF).fault = .none ∧ 4096 ≤ (State.reset.setPc 0xFFF).pc + 1 ∧
    (State.reset.setPc 0xFFF).params.fetchOob = .substitute := by decide

theorem test_witness_OutOfBoundsStepRaisesFetchBounds :
    let s := (State.reset.setPc 0xFFF).fetchFaulting
    s.fault = .none ∧ 4096 ≤ s.pc + 1 ∧ s.params.fetchOob = .fault := by decide

theorem test_witness_FetchLatchesOpcode :
    (boot 0x614E).fault = .none ∧ (boot 0x614E).fetch = some 0x614E ∧
    (State.reset.setPc 0xFFF).fetchFaulting.fault = .none ∧ (State.reset.setPc 0xFFF).fetchFaulting.fetch = none := by
  decide

theorem test_witness_FaultIsStickyUntilReset :
    (State.reset.setFault .memBounds).fault ≠ .none ∧ (State.reset.setFault .memBounds).mem.wf = true := by decide

/-- One instruction of each directive class, on a state it completes on. -/
theorem test_witness_PcFollowsDirectiveClass :
    State.reset.fault = .none ∧
    (directiveClass .cls = .advance ∧ exec .cls State.reset = .next (run .cls State.reset) ∧
      (run .cls State.reset).fault = .none) ∧
    (directiveClass (.seVxNN 0 0) = .skip ∧ exec (.seVxNN 0 0) State.reset = .next (run (.seVxNN 0 0) State.reset) ∧
      (run (.seVxNN 0 0) State.reset).fault = .none) ∧
    (directiveClass (.jpV0 0xFFF) = .jump ∧ exec (.jpV0 0xFFF) State.reset = .next (run (.jpV0 0xFFF) State.reset) ∧
      (run (.jpV0 0xFFF) State.reset).fault = .none) ∧
    directiveClass (.ldVxK 0) = .wait ∧
      exec (.ldVxK 0) (State.reset.ports 1 0 0) = .next (run (.ldVxK 0) (State.reset.ports 1 0 0)) ∧
      (run (.ldVxK 0) (State.reset.ports 1 0 0)).fault = .none :=
  ⟨by decide, ⟨by decide, exec_run (by decide), by decide⟩, ⟨by decide, exec_run (by decide), by decide⟩,
    ⟨by decide, exec_run (by decide), by decide⟩, by decide, exec_run (by decide), by decide⟩

theorem test_witness_StepSamplesPortsOnce :
    (State.reset.ports 0xFFFF 1 2).inputs = ⟨0xFFFF, 1, 2⟩ :: [] := by decide

theorem test_witness_SysEmitsRequestAndAdvances : (0x0E1 : Addr) ≠ 0x0E0 ∧ (0x0E1 : Addr) ≠ 0x0EE := by decide

theorem test_witness_RetPopsOrUnderflows :
    State.reset.sp = 0 ∧ (State.reset.depth 1).sp.val = (0 : Fin 16).val + 1 ∧
    (State.reset.depth 16).sp.val = (15 : Fin 16).val + 1 := by decide

theorem test_witness_CallPushesOrOverflows :
    (State.reset.depth 16).sp = 16 ∧ State.reset.sp.val = (0 : Fin 16).val ∧
    (State.reset.depth 15).sp.val = (15 : Fin 16).val ∧ (3 : Fin 16) ≠ 15 := by decide

theorem test_witness_ImmediateSkipsCompare :
    (State.reset.reg 3).toNat = (0x00 : Byte).toNat ∧ (State.reset.reg 3).toNat ≠ (0xFF : Byte).toNat := by decide

theorem test_witness_RegisterSkipsCompare :
    (State.reset.reg 3).toNat = (State.reset.reg 4).toNat ∧ (0xF : Nybble) ≠ 0 ∧
    ((State.reset.regs [(4, 1)]).reg 3).toNat ≠ ((State.reset.regs [(4, 1)]).reg 4).toNat := by decide

/-- L1-6: CALL 0x300 at 0x200 and RET at 0x300; the boundary SP = 15. -/
theorem test_witness_CallThenReturnRoundTrip :
    let s := ((boot 0x2300).bytes [(0x301, 0xEE)]).depth 15
    s.fault = .none ∧ s.fetch = some (0x2#4 ++ 0x300#12) ∧ s.sp.val = (15 : Fin 16).val ∧ 12 ≤ s.params.pcWidth ∧
    (0x300 : Addr).toNat + 1 < 4096 ∧ s.readByte 0x300 = 0x00 ∧ s.readByte (0x300 + 1) = 0xEE := by decide

theorem test_witness_AddRegistersSetsCarry : (0xE : RegSel) ≠ 0xF := by decide
theorem test_witness_SubtractionsSetNoBorrow : (0x0 : RegSel) ≠ 0xF := by decide
theorem test_witness_ShiftsMoveVyAndKeepOutBit : (0x1 : RegSel) ≠ 0xF := by decide

theorem test_witness_ImplicitFlagIsZeroOrOne :
    (exec (.addVxVy 0xF 1) State.reset = .next (run (.addVxVy 0xF 1) State.reset) ∧
      (run (.addVxVy 0xF 1) State.reset).fault = State.reset.fault) ∧
    (exec (.drw 0 1 1) State.reset = .next (run (.drw 0 1 1) State.reset) ∧
      (run (.drw 0 1 1) State.reset).fault = State.reset.fault ∧ (1 : Nybble) ≠ 0 ∧ State.reset.fault = .none) ∧
    exec (.drw 0 1 0) State.reset.anyPixel = .next (run (.drw 0 1 0) State.reset.anyPixel) ∧
      (run (.drw 0 1 0) State.reset.anyPixel).fault = State.reset.anyPixel.fault ∧
      State.reset.anyPixel.params.collision = .anyPixel ∧ State.reset.anyPixel.fault = .none :=
  ⟨⟨exec_run (by decide), by decide⟩, ⟨exec_run (by decide), by decide, by decide, by decide⟩,
    exec_run (by decide), by decide, by decide, by decide⟩

theorem test_witness_BcdStoresThreeDigits :
    ¬ (State.reset.setIndex 0xFFE).accessInside 3 ∧ (State.reset.setIndex 0xFFD).accessInside 3 ∧
    (State.reset.setIndex 0xFFFF).wrapping.accessInside 3 ∧ (State.reset.setIndex 0xFFD).mem.wf = true := by
  unfold State.accessInside
  decide

theorem test_witness_RegisterDumpStoresV0ToVx :
    ¬ (State.reset.setIndex 0xFF1).accessInside ((0xF : RegSel).toNat + 1) ∧
    (State.reset.setIndex 0xFF0).accessInside ((0xF : RegSel).toNat + 1) ∧
    (State.reset.setIndex 0xFFFF).wrapping.accessInside ((0xF : RegSel).toNat + 1) ∧
    (State.reset.setIndex 0xFF0).mem.wf = true ∧ (0xF : RegSel).toNat ≤ (0xF : RegSel).toNat := by
  unfold State.accessInside
  decide

theorem test_witness_RegisterLoadFillsV0ToVx :
    ¬ (State.reset.setIndex 0x1000).accessInside ((0x0 : RegSel).toNat + 1) ∧
    (State.reset.setIndex 0xFFF).accessInside ((0x0 : RegSel).toNat + 1) ∧
    (State.reset.setIndex 0xFFFF).wrapping.accessInside ((0xF : RegSel).toNat + 1) := by
  unfold State.accessInside
  decide

/-- The dump up to the top of memory, and the state after it with I moved back, which still holds the
dumped bytes. -/
theorem test_witness_DumpThenLoadRestoresRegisters :
    let s := (State.reset.setIndex 0xFFE).regs [(0, 1), (1, 2)]
    let u := (run (.ldMemVx 1) s).setIndex 0xFFE
    s.mem.wf = true ∧ s.i.toNat + (1 : RegSel).toNat < 4096 ∧ u.i = s.i ∧
    ∀ a, u.readByte a = (run (.ldMemVx 1) s).readByte a :=
  ⟨by decide, by decide, by decide, fun a => State.readByte_setIndex _ _ a⟩

/-- The next instruction at the top of memory: PC = 0xFFC, I = 0xFFE. -/
theorem test_witness_StoredInstructionIsFetchedNext :
    let s := ((State.reset.bytes [(0xFFC, 0xF1), (0xFFD, 0x55)]).setPc 0xFFC).setIndex 0xFFE
    s.fault = .none ∧ s.mem.wf = true ∧ s.fetch = some 0xF155 ∧ s.i.toNat = s.pc + 2 ∧ s.pc + 3 < 4096 ∧
    12 ≤ s.params.pcWidth := by decide

theorem test_witness_DrawCombinesSpriteAndReportsCollision :
    ¬ (State.reset.setIndex 0xFFF).accessInside (2 : Nybble).toNat ∧
    (State.reset.setIndex 0xFFF).accessInside (1 : Nybble).toNat ∧
    (State.reset.setIndex 0xFFFF).accessInside (0 : Nybble).toNat ∧
    (State.reset.setIndex 0xFFFF).wrapping.accessInside (0xF : Nybble).toNat ∧
    State.reset.params.collision = .lastPixel ∧ (0xF : Nybble) ≠ 0 ∧
    State.reset.anyPixel.params.collision = .anyPixel := by
  unfold State.accessInside
  decide

/-- The state after the first draw is one that meets the hypotheses on the second. -/
theorem test_witness_DrawTwiceRestoresDisplay :
    let s := (State.reset.setIndex 0x300).bytes [(0x300, 0xFF)]
    let u := run (.drw 0 1 1) s
    s.accessInside (1 : Nybble).toNat ∧ u.i = s.i ∧ u.params = s.params ∧ (∀ a, u.readByte a = s.readByte a) ∧
    u.reg 0 = s.reg 0 ∧ u.reg 1 = s.reg 1 :=
  ⟨.inr (.inl (by decide)), by decide, by decide, fun _ => rfl, by decide, by decide⟩

theorem test_witness_KeyWaitRepeatsOrTakesLowestKey :
    (State.reset.ports 0 0 0).keyDown = 0x0000 ∧ State.reset.pc < 2 ^ State.reset.params.pcWidth ∧
    (State.reset.ports 0x8000 0 0).keyDown.getLsbD (15 : Fin 16).val = true ∧
    (∀ j : Fin 16, j < 15 → (State.reset.ports 0x8000 0 0).keyDown.getLsbD j.val = false) ∧
    (State.reset.ports 0x0029 0 0).keyDown.getLsbD (0 : Fin 16).val = true ∧
    ∀ j : Fin 16, j < 0 → (State.reset.ports 0x0029 0 0).keyDown.getLsbD j.val = false := by decide

theorem test_witness_PortsMatterOnlyToTheirReaders :
    readsPort (.addVxVy 1 2) = false ∧ exec (.addVxVy 1 2) State.reset = .next (run (.addVxVy 1 2) State.reset) :=
  ⟨by decide, exec_run (by decide)⟩

theorem test_witness_FaultEntryIsPrecise :
    (boot 0x00EE).fault = .none ∧ step (boot 0x00EE) = .next (after (boot 0x00EE)) ∧
    (after (boot 0x00EE)).fault ≠ .none ∧ (boot 0x00EE).fetch = some 0x00EE ∧
    (State.reset.setPc 0xFFF).fetchFaulting.fault = .none ∧
    step (State.reset.setPc 0xFFF).fetchFaulting = .next (after (State.reset.setPc 0xFFF).fetchFaulting) ∧
    (after (State.reset.setPc 0xFFF).fetchFaulting).fault ≠ .none ∧
    (State.reset.setPc 0xFFF).fetchFaulting.fetch = none :=
  ⟨by decide, step_after (by decide), by decide, by decide, by decide, step_after (by decide), by decide,
    by decide⟩

theorem test_witness_FaultCausesAreExact :
    (boot 0x2300).fault = .none ∧ faultStatusCode (after ((boot 0x2300).depth 16)).fault = 1 ∧
    faultStatusCode (after (boot 0x00EE)).fault = 2 ∧
    faultStatusCode (after ((boot 0xD012).setIndex 0xFFF)).fault = 3 ∧
    faultStatusCode (after (State.reset.setPc 0xFFF).fetchFaulting).fault = 4 := by decide

/-- A state that meets the invariant, with a call recorded on its stack. -/
theorem test_witness_EveryStepKeepsInvariant :
    (after (boot 0x2300)).Inv ∧ step (after (boot 0x2300)) = .next (after (after (boot 0x2300))) :=
  ⟨⟨by decide, by decide, by decide, by decide, trivial⟩, step_after (by decide)⟩

/-- A faulted state that meets the invariant, with the default PC_WIDTH. -/
theorem test_witness_HostOperationsKeepInvariant :
    (after (boot 0x00EE)).Inv ∧ 10 ≤ (after (boot 0x00EE)).params.pcWidth :=
  ⟨⟨by decide, by decide, by decide, by decide, ⟨by decide, by decide⟩⟩, by decide⟩

theorem test_witness_ResetValuesAreThoseOfTheTable :
    State.reset = State.reset ∧ ∃ s : State, s.fault = .memBounds ∧ State.rst s = s.rst :=
  ⟨rfl, State.reset.setFault .memBounds, rfl, rfl⟩

theorem test_witness_OnlyTableWritesRegisters :
    (exec (.ldVxMem 3) State.reset = .next (run (.ldVxMem 3) State.reset) ∧ ¬ writesReg State.reset (.ldVxMem 3) 4) ∧
    exec (.ldVxK 3) (State.reset.ports 0 0 0) = .next (run (.ldVxK 3) (State.reset.ports 0 0 0)) ∧
    ¬ writesReg (State.reset.ports 0 0 0) (.ldVxK 3) 3 :=
  ⟨⟨exec_run (by decide), by simp only [writesReg]; decide⟩, exec_run (by decide),
    by simp only [writesReg]; decide⟩

theorem test_witness_OnlyNamedInstructionsWriteMemoryAndIndex :
    (exec (.ldVxMem 3) State.reset = .next (run (.ldVxMem 3) State.reset) ∧ writesMemory (.ldVxMem 3) = false) ∧
    exec (.ldBVx 3) State.reset = .next (run (.ldBVx 3) State.reset) ∧ writesIndex (.ldBVx 3) = false :=
  ⟨⟨exec_run (by decide), by decide⟩, exec_run (by decide), by decide⟩

theorem test_witness_OnlyNamedInstructionsWriteStackAndDisplay :
    let s := State.reset.setDisplay blankDisplay
    exec (.jp 0x200) s = .next (run (.jp 0x200) s) ∧ (∀ nnn, Instr.jp 0x200 ≠ .call nnn) ∧ Instr.jp 0x200 ≠ .ret ∧
    Instr.jp 0x200 ≠ .cls ∧ (∀ x y n, Instr.jp 0x200 ≠ .drw x y n) ∧ s.chg = true ∧
    exec .cls State.reset = .next (run .cls State.reset) ∧ (run .cls State.reset).fault = State.reset.fault ∧
    State.reset.fault = .none :=
  ⟨rfl, by simp, by simp, by simp, by simp, rfl, rfl, rfl, rfl⟩

theorem test_witness_StepOutputIsAtMostOneNamedEvent :
    (boot 0xF115).fault = .none ∧ (boot 0xF115).fetch = some 0xF115 ∧ decode 0xF115 = .ok (.ldDTVx 1) ∧
    (State.reset.setFault .memBounds).fault ≠ .none ∧ (State.reset.setPc 0xFFF).fetchFaulting.fetch = none ∧
    (boot 0x5121).fetch = some 0x5121 ∧ decode 0x5121 = .error (.noPattern 0x5121) := by decide

/-- A fault ends a run, and so does the jump to itself of C-9. -/
theorem test_witness_EndedRunStaysEnded :
    (State.reset.setFault .memBounds).ended 0x200 ∧ (boot 0x1200).ended 0x200 ∧ 12 ≤ (boot 0x1200).params.pcWidth :=
  ⟨.inl (by unfold State.running; decide), .inr ⟨by decide, 0x200, by decide, by decide⟩, by decide⟩

/-- H-3: 3585 bytes; the last one placed, the first one dropped, and the bytes on either side. -/
theorem test_witness_LoadCopiesProgramWithTruncation :
    State.reset.mem.wf = true ∧ 3583 < (List.replicate 3585 (0x5A : Byte)).length ∧ 512 + 3583 < 4096 ∧
    ¬ 512 + 3584 < 4096 ∧ (0x1FF : Addr).toNat < 512 ∧ 512 + ([0x12, 0x00] : List Byte).length ≤ (0x202 : Addr).toNat :=
  ⟨by decide, by rw [List.length_replicate]; decide, by decide, by decide, by decide, by decide⟩

end Sys2Proof.Tests
end

section
/-! PROOFS. What a handler writes and leaves unchanged, said once for all 35 instructions; what a step can do; and
from these the statements about the state of 10_state.md. -/

namespace Sys2Proof.Machine

/-! ## What each instruction may write beside registers -/

/-- The parts of the state an instruction may write (R26, R29, R30, R42). -/
def writtenParts : Instr → List Part
  | .ldI _ | .addIVx _ | .ldFVx _ | .ldMemVx _ | .ldVxMem _ => [.index]
  | .call _ | .ret => [.stack]
  | .cls | .drw _ _ _ => [.display]
  | .sys _ | .ldDTVx _ | .ldSTVx _ => [.output]
  | _ => []

/-- The bytes an instruction may write: those of its index-relative access, where it writes memory (R51). -/
def writesByte (s : State) (i : Instr) (a : Addr) : Prop :=
  writesMemory i = true ∧ ∃ n k, dataBytes i = some n ∧ k < n ∧ a = s.indexed k

theorem writesByte_of_mem {s : State} {i : Instr} {n : Nat} {a : Addr} (hw : writesMemory i = true)
    (hd : dataBytes i = some n) (ha : a ∈ (List.range n).map s.indexed) : writesByte s i a := by
  obtain ⟨k, hk, rfl⟩ := List.mem_map.mp ha
  exact ⟨hw, n, k, hd, List.mem_range.mp hk, rfl⟩

/-! ## Frames -/

theorem Frame.mono {regs regs' : RegSel → Prop} {bytes bytes' : Addr → Prop} {parts : List Part} {s t : State}
    (h : Frame regs bytes parts s t) (hr : ∀ r, regs r → regs' r) (hb : ∀ a, bytes a → bytes' a) :
    Frame regs' bytes' parts s t := by
  obtain ⟨hreg, hbyte, hrest⟩ := h
  exact ⟨fun r hn => hreg r (mt (hr r) hn), fun a hn => hbyte a (mt (hb a) hn), hrest⟩

theorem Frame.ofNoByte {regs : RegSel → Prop} {bytes : Addr → Prop} {parts : List Part} {s t : State}
    (h : Frame regs noByte parts s t) : Frame regs bytes parts s t :=
  h.mono (fun _ => id) (fun _ => False.elim)

theorem Frame.ofStack (s : State) (slots : Vector Word 16) (sp : Fin 17) (p : Nat) :
    Frame noReg noByte [.stack] s ((s.setStack slots sp).setPc p) :=
  ⟨fun _ _ => rfl, fun _ _ => rfl, by simp⟩

theorem Frame.ofDisplay (s : State) (d : Display) (p : Nat) :
    Frame noReg noByte [.display] s ((s.setDisplay d).setPc p) :=
  ⟨fun _ _ => rfl, fun _ _ => rfl, by simp⟩

/-- Writes to a list of addresses leave every other byte alone. -/
theorem State.readByte_writeBytes_zip {s : State} {addrs : List Addr} {vs : List Byte} {a : Addr}
    (ha : a ∉ addrs) : (s.writeBytes (addrs.zip vs)).readByte a = s.readByte a := by
  refine State.readByte_writeBytes_of_not_mem fun hmem => ha ?_
  obtain ⟨⟨b, v⟩, hz, rfl⟩ := List.mem_map.mp hmem
  exact (List.of_mem_zip hz).1

/-- A run of register writes from V[0] on leaves every register past it alone. -/
theorem State.reg_setRegsFrom_past {s : State} {l : List Byte} {r : RegSel} (hl : l.length ≤ 16)
    (hr : l.length ≤ r.toNat) : (s.setRegsFrom 0 l).reg r = s.reg r := by
  rw [State.reg_setRegsFrom s 0 l r (by omega), dif_neg (by omega)]

theorem Frame.keeps_reg {regs : RegSel → Prop} {bytes : Addr → Prop} {parts : List Part} {s t : State}
    (h : Frame regs bytes parts s t) {r : RegSel} (hr : ¬ regs r) : t.reg r = s.reg r := by
  obtain ⟨hreg, -⟩ := h
  exact hreg r hr

theorem Frame.keeps_stack {regs : RegSel → Prop} {bytes : Addr → Prop} {parts : List Part} {s t : State}
    (h : Frame regs bytes parts s t) (hp : Part.stack ∉ parts) : t.sp = s.sp ∧ t.stack = s.stack := by
  obtain ⟨-, -, -, hstack, -⟩ := h
  exact hstack hp

theorem Frame.keeps_display {regs : RegSel → Prop} {bytes : Addr → Prop} {parts : List Part} {s t : State}
    (h : Frame regs bytes parts s t) (hp : Part.display ∉ parts) : t.fb = s.fb ∧ t.chg = s.chg := by
  obtain ⟨-, -, -, -, hdisplay, -⟩ := h
  exact hdisplay hp

theorem Frame.keeps_out {regs : RegSel → Prop} {bytes : Addr → Prop} {parts : List Part} {s t : State}
    (h : Frame regs bytes parts s t) (hp : Part.output ∉ parts) : t.out = s.out := by
  obtain ⟨-, -, -, -, -, hout, -⟩ := h
  exact hout hp

/-- What no handler writes beside FAULT: the end of every frame. -/
theorem Frame.keeps_rest {regs : RegSel → Prop} {bytes : Addr → Prop} {parts : List Part} {s t : State}
    (h : Frame regs bytes parts s t) :
    t.op = s.op ∧ t.fault = s.fault ∧ t.params = s.params ∧ t.inputs = s.inputs ∧ t.tick = s.tick := by
  obtain ⟨-, -, -, -, -, -, hrest⟩ := h
  exact hrest

/-! ## The flag of a draw (R183, R186) -/

/-- The compositor after all rows of the sprite of DRW Vx, Vy, N (R182). -/
def State.drawn (s : State) (x y : RegSel) (n : Nybble) : Compositor :=
  drawRowsFrom s.params.collision (s.reg x) (s.reg y) 0 (s.spriteRows n.toNat)
    { fb := s.fb, vf := s.reg flagReg, any := false }

/-- V[F] after a draw (R183). -/
def State.drawnFlag (s : State) (x y : RegSel) (n : Nybble) : Byte :=
  collisionFlag s.params.collision (s.drawn x y n)

theorem execDrw_drawn {s : State} (x y : RegSel) (n : Nybble) (h : s.accessInside n.toNat) :
    execDrw x y n s = .next (((s.setReg flagReg (s.drawnFlag x y n)).setDisplay (s.drawn x y n).fb).setPc
      (pcPlus s 2)) :=
  execDrw_inside x y n h

/-- Under LastPixel a draw of no row keeps V[F] (R186). -/
theorem State.drawnFlag_no_row (s : State) (x y : RegSel) (hc : s.params.collision = .lastPixel) :
    s.drawnFlag x y 0 = s.reg flagReg := by
  simp [State.drawnFlag, State.drawn, hc, collisionFlag, State.spriteRows, drawRowsFrom]

theorem State.spriteRows_succ (s : State) (m : Nat) :
    s.spriteRows (m + 1) = s.spriteRows m ++ [s.readByte (s.indexed m)] := by
  simp [State.spriteRows, List.range_succ]

/-- A draw of some row, and every draw under AnyPixel, leaves a flag in V[F] (R24, R183). -/
theorem State.drawnFlag_zero_or_one (s : State) (x y : RegSel) (n : Nybble)
    (h : n ≠ 0 ∨ s.params.collision = .anyPixel) : s.drawnFlag x y n = 0 ∨ s.drawnFlag x y n = 1 := by
  unfold State.drawnFlag State.drawn
  cases hc : s.params.collision with
  | anyPixel => exact flagByte_zero_or_one _
  | lastPixel =>
    have hn : n ≠ 0 := h.resolve_right (by simp [hc])
    obtain ⟨m, hm⟩ : ∃ m, n.toNat = m + 1 :=
      Nat.exists_eq_succ_of_ne_zero fun h0 => hn (BitVec.eq_of_toNat_eq h0)
    have hlen : 0 + (s.spriteRows m).length < 32 := by simp [State.spriteRows]; omega
    rw [hm, State.spriteRows_succ, collisionFlag, drawRowsFrom_vf_lastPixel _ _ _ _ _ _ hlen]
    exact flagByte_zero_or_one _

/-! ## What a completed handler leaves unchanged, for every instruction -/

theorem call_not_full {nnn : Addr} {s : State} (hq : ∀ c, ¬ raisesCause (.call nnn) s c) : s.sp.val < 16 := by
  have hne : s.sp.val ≠ 16 := fun h => hq .stackOverflow ⟨⟨nnn, rfl⟩, Fin.ext h⟩
  omega

theorem ret_not_empty {s : State} (hq : ∀ c, ¬ raisesCause .ret s c) : 0 < s.sp.val :=
  Nat.pos_of_ne_zero fun h => hq .stackUnderflow ⟨rfl, Fin.ext h⟩

theorem accessInside_of_quiet {i : Instr} {s : State} {n : Nat} (hq : ∀ c, ¬ raisesCause i s c)
    (hn : dataBytes i = some n) : s.accessInside n :=
  Classical.byContradiction fun h => hq .memBounds ⟨n, hn, h⟩

/-- An instruction that raises nothing writes only the registers of R22, the bytes of R51 and its own parts, and
keeps memory canonical. -/
theorem exec_frame (i : Instr) (s : State) (hq : ∀ c, ¬ raisesCause i s c) :
    ∃ t, exec i s = .next t ∧ Frame (writesReg s i) (writesByte s i) (writtenParts i) s t ∧
      (s.mem.wf = true → t.mem.wf = true) := by
  cases i
  case cls => exact ⟨_, rfl, (Frame.ofDisplay ..).ofNoByte, id⟩
  case ret => exact ⟨_, execRet_some (ret_not_empty hq), (Frame.ofStack ..).ofNoByte, id⟩
  case call nnn => exact ⟨_, execCall_some nnn (call_not_full hq), (Frame.ofStack ..).ofNoByte, id⟩
  case sys | ldDTVx | ldSTVx => exact ⟨_, rfl, (Frame.ofEvent ..).ofNoByte, id⟩
  case jp | jpV0 | seVxNN | sneVxNN | seVxVy | sneVxVy | skp | sknp =>
    exact ⟨_, rfl, (Frame.ofPc ..).ofNoByte, id⟩
  case ldVxNN | addVxNN | ldVxVy | orVxVy | andVxVy | xorVxVy | rnd | ldVxDT =>
    exact ⟨_, rfl, (Frame.ofReg ..).ofNoByte, id⟩
  case addVxVy | subVxVy | shrVxVy | subnVxVy | shlVxVy =>
    exact ⟨_, rfl, (Frame.ofRegAndFlag ..).ofNoByte, id⟩
  case ldI | addIVx | ldFVx => exact ⟨_, rfl, (Frame.ofIndex ..).ofNoByte, id⟩
  case ldVxK x =>
    by_cases hk : s.keyDown = 0
    · exact ⟨_, execLdVxK_noKey x hk, (Frame.ofPc ..).mono (fun _ => False.elim) (fun _ => False.elim), id⟩
    · exact ⟨_, execLdVxK_key x hk, (Frame.ofReg ..).mono (fun _ h => ⟨h, hk⟩) (fun _ => False.elim), id⟩
  case drw x y n =>
    refine ⟨_, execDrw_drawn x y n (accessInside_of_quiet hq rfl),
      ⟨fun r hr => ?_, fun _ _ => rfl, by simp [writtenParts]⟩, id⟩
    show (s.setReg flagReg (s.drawnFlag x y n)).reg r = s.reg r
    by_cases hF : r = flagReg
    · obtain ⟨hn, hc⟩ := not_or.mp fun h => hr ⟨hF, h⟩
      have hlast : s.params.collision = .lastPixel := by cases h : s.params.collision <;> simp_all
      rw [Classical.not_not.mp hn, State.drawnFlag_no_row s x y hlast, State.setReg_reg]
    · exact State.reg_setReg_ne hF
  case ldBVx x =>
    refine ⟨_, execLdBVx_inside x (accessInside_of_quiet hq rfl),
      ⟨fun _ _ => by simp, fun a ha => ?_, by simp⟩, State.writeBytes_wf _⟩
    exact State.readByte_writeBytes_zip (mt (writesByte_of_mem rfl rfl) ha)
  case ldMemVx x =>
    refine ⟨_, execLdMemVx_inside x (accessInside_of_quiet hq rfl),
      ⟨fun _ _ => by simp, fun a ha => ?_, by simp [writtenParts]⟩, State.writeBytes_wf _⟩
    exact State.readByte_writeBytes_zip (mt (writesByte_of_mem rfl rfl) ha)
  case ldVxMem x =>
    refine ⟨_, execLdVxMem_inside x (accessInside_of_quiet hq rfl),
      ⟨fun r hr => ?_, fun _ _ => by simp, by simp [writtenParts]⟩, by simp⟩
    have hx : ¬ r.toNat ≤ x.toNat := hr
    exact State.reg_setRegsFrom_past (by simp; omega) (by simp; omega)

/-- Everything a handler's next state can be: the state with a fault raised, or, where no cause of R221 holds, one
whose PC fits its width and that keeps what the instruction does not write. -/
theorem exec_next {i : Instr} {s t : State} (h : exec i s = .next t) :
    (∃ c, raisesCause i s c ∧ t = s.setFault c) ∨
    ((∀ c, ¬ raisesCause i s c) ∧ t.pc < 2 ^ s.params.pcWidth ∧
      Frame (writesReg s i) (writesByte s i) (writtenParts i) s t ∧ (s.mem.wf = true → t.mem.wf = true)) := by
  rcases exec_cases i s with ⟨c, hc, he⟩ | ⟨hq, u, d, he, -⟩
  · exact .inl ⟨c, hc, Host.Outcome.next.inj (h.symm.trans he)⟩
  · obtain ⟨v, hv, hframe, hwf⟩ := exec_frame i s hq
    obtain rfl := Host.Outcome.next.inj (h.symm.trans hv)
    obtain rfl := Host.Outcome.next.inj (h.symm.trans he)
    exact .inr ⟨hq, resolvePc_lt .., hframe, hwf⟩

/-! ## The parts an instruction writes -/

theorem stack_written {i : Instr} (h : Part.stack ∈ writtenParts i) : (∃ nnn, i = .call nnn) ∨ i = .ret := by
  cases i <;> simp_all [writtenParts]

theorem display_written_iff {i : Instr} :
    Part.display ∈ writtenParts i ↔ i = .cls ∨ ∃ x y n, i = .drw x y n := by
  cases i <;> simp [writtenParts]

theorem output_written {i : Instr} (h : Part.output ∈ writtenParts i) :
    (∃ nnn, i = .sys nnn) ∨ (∃ x, i = .ldDTVx x) ∨ ∃ x, i = .ldSTVx x := by
  cases i <;> simp_all [writtenParts]

theorem emitted_of_not_written {i : Instr} (s : State) (h : Part.output ∉ writtenParts i) : emitted s i = [] := by
  cases i <;> simp_all [writtenParts, emitted]

/-- A handler appends the event of R42 to the output, or nothing. -/
theorem exec_out {i : Instr} {s t : State} (h : exec i s = .next t) : t.out = s.out ++ emitted s i := by
  by_cases ho : Part.output ∈ writtenParts i
  · rcases output_written ho with ⟨nnn, rfl⟩ | ⟨x, rfl⟩ | ⟨x, rfl⟩ <;> exact Host.Outcome.next.inj h ▸ rfl
  · rw [emitted_of_not_written s ho, List.append_nil]
    rcases exec_next h with ⟨c, -, rfl⟩ | ⟨-, -, hframe, -⟩
    · rfl
    · exact hframe.keeps_out ho

/-- CLS and DRW set CHG where they raise nothing (R31). -/
theorem exec_sets_chg {i : Instr} {s t : State} (h : exec i s = .next t) (hq : ∀ c, ¬ raisesCause i s c)
    (hd : Part.display ∈ writtenParts i) : t.chg = true := by
  rcases display_written_iff.mp hd with rfl | ⟨x, y, n, rfl⟩
  · exact Host.Outcome.next.inj h ▸ rfl
  · have inside : s.accessInside n.toNat := accessInside_of_quiet hq rfl
    obtain rfl := Host.Outcome.next.inj ((execDrw_drawn x y n inside).symm.trans h)
    rfl

/-- No handler writes the parameters, OP, the lined-up port values or the counter. -/
theorem exec_keeps_cycle_state {i : Instr} {s t : State} (h : exec i s = .next t) :
    t.op = s.op ∧ t.params = s.params ∧ t.inputs = s.inputs ∧ t.tick = s.tick := by
  rcases exec_next h with ⟨c, -, rfl⟩ | ⟨-, -, hframe, -⟩
  · exact ⟨rfl, rfl, rfl, rfl⟩
  · obtain ⟨hop, -, hrest⟩ := hframe.keeps_rest
    exact ⟨hop, hrest⟩

theorem exec_total (i : Instr) (s : State) : ∃ t, exec i s = .next t := by
  rcases exec_cases i s with ⟨c, -, he⟩ | ⟨-, u, d, he, -⟩
  · exact ⟨_, he⟩
  · exact ⟨_, he⟩

/-! ## What a step can do -/

/-- What the cycle does before the sampled port values pass (R100): nothing on a faulted block, FETCH_BOUNDS, the
decoded instruction, or the no-operation handler. -/
inductive Cycled (s : State) : State → Prop
  | faulted : s.fault ≠ .none → Cycled s s.clearOutput
  | noFetch : s.fault = .none → s.fetch = none → Cycled s (s.clearOutput.setFault .fetchBounds)
  | ran (w : Word) (i : Instr) (t : State) : s.fault = .none → s.fetch = some w → decode w = .ok i →
      exec i (s.clearOutput.latchOpcode w) = .next t → Cycled s t
  | noPattern (w : Word) (e : DecodeError) : s.fault = .none → s.fetch = some w → decode w = .error e →
      Cycled s ((s.clearOutput.latchOpcode w).setPc (pcPlus s 2))

theorem step_cycled (s : State) : ∃ u, step s = .next u.passInputs ∧ Cycled s u := by
  unfold step
  rcases cycle_cases exec s with ⟨h, hc⟩ | ⟨h, hf, hc⟩ | ⟨w, i, h, hf, hd, hc⟩ | ⟨w, e, h, hf, hd, hc⟩
  · exact ⟨_, hc, .faulted h⟩
  · exact ⟨_, hc, .noFetch h hf⟩
  · obtain ⟨t, ht⟩ := exec_total i (s.clearOutput.latchOpcode w)
    exact ⟨t, by rw [hc, ht, passInputsOf_next], .ran w i t h hf hd ht⟩
  · exact ⟨_, hc, .noPattern w e h hf hd⟩

/-! ## The invariant -/

/-- A fetch answers no word only outside memory under `Fault` (R102). -/
theorem State.fetch_none {s : State} (h : s.fetch = none) : s.params.fetchOob = .fault ∧ 4096 ≤ s.pc + 1 := by
  have hpc : ¬ s.pc + 1 < 4096 := fun hlt => by simp [State.fetch_inside hlt] at h
  cases hp : s.params.fetchOob with
  | substitute => simp [State.fetch_substitute (by omega) hp] at h
  | fault => exact ⟨rfl, by omega⟩

/-- A fetch that yields a CALL lies inside memory: the substituted word 0x0000 is SYS (R102). -/
theorem State.fetch_call_inside {s : State} {w : Word} {nnn : Addr} (hf : s.fetch = some w)
    (hd : decode w = .ok (.call nnn)) : s.pc + 1 < 4096 := by
  refine Classical.byContradiction fun hpc => ?_
  cases hp : s.params.fetchOob with
  | substitute =>
    have hw : (0x0000 : Word) = w := Option.some.inj ((State.fetch_substitute (by omega) hp).symm.trans hf)
    have h0 : decode 0x0000 = .ok (.sys 0x000) := by decide
    rw [← hw, h0] at hd
    cases hd
  | fault =>
    rw [State.fetch_fault (by omega) hp] at hf
    cases hf

/-- The address a CALL inside memory pushes (R123). -/
theorem returnAddr_le {p : Params} {pc : Nat} (h : pc + 1 < 4096) :
    (BitVec.ofNat 16 (wrapPc p (pc + 2))).toNat ≤ 0x1000 := by
  have hwrap : wrapPc p (pc + 2) ≤ pc + 2 := Nat.mod_le _ _
  rw [BitVec.toNat_ofNat]
  omega

/-- A handler keeps every slot at most 0x1000, CALL being fetched inside memory only (R29, R123). -/
theorem exec_keeps_slots {i : Instr} {s t : State} (h : exec i s = .next t)
    (hcall : ∀ nnn, i = .call nnn → s.pc + 1 < 4096) (hs : ∀ k : Fin 16, s.stack[k.val].toNat ≤ 0x1000) :
    ∀ k : Fin 16, t.stack[k.val].toNat ≤ 0x1000 := by
  intro k
  rcases exec_next h with ⟨c, -, rfl⟩ | ⟨hq, -, hframe, -⟩
  · exact hs k
  by_cases hw : Part.stack ∈ writtenParts i
  · rcases stack_written hw with ⟨nnn, rfl⟩ | rfl
    · obtain rfl := Host.Outcome.next.inj ((execCall_some nnn (call_not_full hq)).symm.trans h)
      simp only [State.setPc_stack, State.setStack_stack, Vector.getElem_set]
      split
      · exact returnAddr_le (hcall nnn rfl)
      · exact hs k
    · obtain rfl := Host.Outcome.next.inj ((execRet_some (ret_not_empty hq)).symm.trans h)
      exact hs k
  · rw [(hframe.keeps_stack hw).2]
    exact hs k

theorem dataBytes_le {i : Instr} {n : Nat} (h : dataBytes i = some n) : n ≤ 16 := by
  cases i <;> cases h <;> omega

/-- A raise on an empty output records a true cause (R221, R222). -/
theorem State.faultRecord_setFault {i : Instr} {s : State} {c : FaultCode} (hc : raisesCause i s c)
    (hout : s.out = []) : (s.setFault c).faultRecord := by
  cases c with
  | none => trivial
  | stackOverflow => exact ⟨congrArg Fin.val hc.2, hout⟩
  | stackUnderflow => exact ⟨congrArg Fin.val hc.2, hout⟩
  | memBounds =>
    obtain ⟨n, hn, ha⟩ := hc
    obtain ⟨-, hi, hp⟩ := State.not_accessInside.mp ha
    have hle := dataBytes_le hn
    exact ⟨hp, by simp only [State.setFault_i]; omega, hout⟩
  | fetchBounds => exact hc.elim

theorem State.faultRecord_of_none {s : State} (h : s.fault = .none) : s.faultRecord := by
  simp [State.faultRecord, h]

theorem emitted_length_le (s : State) (i : Instr) : (emitted s i).length ≤ 1 := by
  cases i <;> simp [emitted]

/-- The start of a step keeps the invariant: an empty output is what every fault record asks for. -/
theorem State.Inv.clearOutput {s : State} (h : s.Inv) : s.clearOutput.Inv := by
  obtain ⟨hmem, hpc, -, hslots, hrec⟩ := h
  refine ⟨hmem, hpc, Nat.zero_le _, hslots, ?_⟩
  unfold State.faultRecord at hrec ⊢
  rw [State.clearOutput_fault]
  cases hc : s.fault <;> simp_all

/-- A handler started as a step starts it keeps the invariant. -/
theorem exec_keeps_inv {i : Instr} {s t : State} (h : exec i s = .next t) (hs : s.Inv) (hfault : s.fault = .none)
    (hout : s.out = []) (hcall : ∀ nnn, i = .call nnn → s.pc + 1 < 4096) : t.Inv := by
  obtain ⟨hmem, hpc, -, hslots, -⟩ := hs
  have hlen : t.out.length ≤ 1 := by
    rw [exec_out h, hout, List.nil_append]
    exact emitted_length_le s i
  have hslots' := exec_keeps_slots h hcall hslots
  rcases exec_next h with ⟨c, hc, rfl⟩ | ⟨-, hpc', hframe, hwf⟩
  · exact ⟨hmem, hpc, hlen, hslots', State.faultRecord_setFault hc hout⟩
  · obtain ⟨-, hfault', hparams, -⟩ := hframe.keeps_rest
    exact ⟨hwf hmem, hparams ▸ hpc', hlen, hslots', State.faultRecord_of_none (hfault'.trans hfault)⟩

theorem Cycled.keeps_inv {s u : State} (h : Cycled s u) (hs : s.Inv) : u.Inv := by
  have hclear := hs.clearOutput
  obtain ⟨hmem, hpc, hlen, hslots, -⟩ := hs.clearOutput
  cases h with
  | faulted => exact hclear
  | noFetch hfault hfetch =>
    refine ⟨hmem, hpc, hlen, hslots, ?_⟩
    obtain ⟨hp, hle⟩ := State.fetch_none hfetch
    exact ⟨hp, hle, rfl⟩
  | ran w i _ hfault hfetch hdec hexec =>
    refine exec_keeps_inv hexec hclear hfault rfl ?_
    rintro nnn rfl
    exact State.fetch_call_inside hfetch hdec
  | noPattern w e hfault =>
    exact ⟨hmem, Nat.mod_lt _ (Nat.two_pow_pos _), hlen, hslots, State.faultRecord_of_none hfault⟩

/-- Settles O44: each way a step can go keeps every clause of the invariant. -/
theorem everyStepKeepsInvariant : Obligations.EveryStepKeepsInvariant := by
  intro s t hs h
  obtain ⟨u, hstep, hu⟩ := step_cycled s
  obtain rfl := Host.Outcome.next.inj (hstep.symm.trans h)
  exact hu.keeps_inv hs

/-! ## Ports and output -/

theorem Cycled.keeps_ports {s u : State} (h : Cycled s u) :
    u.params = s.params ∧ u.inputs = s.inputs ∧ u.tick = s.tick := by
  cases h with
  | faulted | noFetch | noPattern => exact ⟨rfl, rfl, rfl⟩
  | ran w i _ _ _ _ hexec =>
    obtain ⟨-, hkeeps⟩ := exec_keeps_cycle_state hexec
    exact hkeeps

/-- Settles O14: the ports are those of the first lined-up values, and no way a step can go writes the parameters, the
list or the counter before its end, which drops the first and counts the step. -/
theorem stepSamplesPortsOnce : Obligations.StepSamplesPortsOnce := by
  refine ⟨fun s p rest h => by simp [State.keyDown, State.delayIn, State.randIn, h], fun s => ?_⟩
  obtain ⟨u, hstep, hu⟩ := step_cycled s
  obtain ⟨hparams, hinputs, htick⟩ := hu.keeps_ports
  exact ⟨_, hstep, congrArg List.tail hinputs, congrArg (· + 1) htick, hparams⟩

/-- Settles O51: a handler appends the event of R42 to the output the step has cleared; the other ways a step can go
append none. -/
theorem stepOutputIsAtMostOneNamedEvent : Obligations.StepOutputIsAtMostOneNamedEvent := by
  intro s
  obtain ⟨u, hstep, hu⟩ := step_cycled s
  refine ⟨_, hstep, ?_⟩
  rw [State.passInputs_out]
  cases hu with
  | faulted hfault => exact ⟨Nat.zero_le _, fun _ _ h => absurd h hfault, fun _ => rfl⟩
  | noFetch hfault hfetch => exact ⟨Nat.zero_le _, fun _ _ _ h => by simp [hfetch] at h, fun _ => rfl⟩
  | ran w i _ hfault hfetch hdec hexec =>
    have hout : u.out = emitted (s.clearOutput.latchOpcode w) i := exec_out hexec
    refine ⟨hout ▸ emitted_length_le _ i, fun w' i' _ hf hd => ?_, ?_⟩
    · obtain rfl := Option.some.inj (hfetch.symm.trans hf)
      obtain rfl := Except.ok.inj (hdec.symm.trans hd)
      rw [hout]
      cases i <;> rfl
    · rintro (h | h | ⟨w', e, hf, hd⟩)
      · exact absurd hfault h
      · simp [hfetch] at h
      · obtain rfl := Option.some.inj (hfetch.symm.trans hf)
        simp [hdec] at hd
  | noPattern w e hfault hfetch hdec =>
    refine ⟨Nat.zero_le _, fun w' i _ hf hd => ?_, fun _ => rfl⟩
    obtain rfl := Option.some.inj (hfetch.symm.trans hf)
    simp [hdec] at hd

/-! ## Registers, stack and display by instruction -/

/-- Settles O48: a raise writes FAULT alone, and a completed handler frames every register outside the table of R22. -/
theorem onlyTableWritesRegisters : Obligations.OnlyTableWritesRegisters := by
  intro i s t r h hr
  rcases exec_next h with ⟨c, -, rfl⟩ | ⟨-, -, hframe, -⟩
  · rfl
  · exact hframe.keeps_reg hr

/-- A raise from an unfaulted state changes FAULT. -/
theorem setFault_ne_of_raises {i : Instr} {s : State} {c : FaultCode} (hc : raisesCause i s c)
    (hfault : s.fault = .none) : (s.setFault c).fault ≠ s.fault := by
  rw [hfault]
  rintro rfl
  exact hc

/-- Settles O50: the stack and the display are written by the instructions whose parts they are, and those of the
display set CHG. -/
theorem onlyNamedInstructionsWriteStackAndDisplay : Obligations.OnlyNamedInstructionsWriteStackAndDisplay := by
  intro i s t h
  rcases exec_next h with ⟨c, hc, rfl⟩ | ⟨hq, -, hframe, -⟩
  · exact ⟨fun _ _ => ⟨rfl, rfl⟩, fun _ _ => ⟨rfl, rfl⟩, id,
      fun hsame hfault => absurd hsame (setFault_ne_of_raises hc hfault)⟩
  have hset := exec_sets_chg h hq
  refine ⟨fun hcall hret => hframe.keeps_stack fun hw => ?_, fun hcls hdrw => hframe.keeps_display fun hw => ?_,
    fun hchg => ?_, fun _ _ hi => hset (display_written_iff.mpr hi)⟩
  · rcases stack_written hw with ⟨nnn, hi⟩ | hi
    · exact hcall nnn hi
    · exact hret hi
  · rcases display_written_iff.mp hw with hi | ⟨x, y, n, hi⟩
    · exact hcls hi
    · exact hdrw x y n hi
  · by_cases hw : Part.display ∈ writtenParts i
    · exact hset hw
    · exact (hframe.keeps_display hw).2.trans hchg

/-- The flag is what a flag-writing form leaves in V[F], whatever X is (R24, R147). -/
theorem State.flag_setRegAndFlag (s : State) (x : RegSel) (b : Byte) (f : Bool) (p : Nat) :
    ((s.setRegAndFlag x b f).setPc p).reg 0xF = 0 ∨ ((s.setRegAndFlag x b f).setPc p).reg 0xF = 1 := by
  rw [State.reg_setPc, State.reg_setRegAndFlag, if_pos rfl]
  exact flagByte_zero_or_one f

/-- Settles O27: the five forms write a flag last; a draw that does not raise leaves the collision flag. -/
theorem implicitFlagIsZeroOrOne : Obligations.ImplicitFlagIsZeroOrOne := by
  rintro i s t h hsame (⟨x, y, rfl | rfl | rfl | rfl | rfl⟩ | ⟨x, y, n, rfl, hflag, hfault⟩)
  case inl.inl | inl.inr.inl | inl.inr.inr.inl | inl.inr.inr.inr.inl | inl.inr.inr.inr.inr =>
    exact Host.Outcome.next.inj h ▸ State.flag_setRegAndFlag ..
  case inr =>
    rcases exec_next h with ⟨c, hc, rfl⟩ | ⟨hq, -⟩
    · exact absurd hsame (setFault_ne_of_raises hc hfault)
    · have inside : s.accessInside n.toNat := accessInside_of_quiet hq rfl
      obtain rfl := Host.Outcome.next.inj ((execDrw_drawn x y n inside).symm.trans h)
      rw [State.reg_setPc, State.reg_setDisplay, State.reg_setReg_same]
      exact s.drawnFlag_zero_or_one x y n hflag

/-! ## Noninterference of the ports (R41) -/

/-- The state with other lined-up port values and another count of steps. -/
def State.withPorts (s : State) (ps : List Ports) (n : Nat) : State := { s with inputs := ps, tick := n }

theorem State.writeBytes_withPorts (s : State) (l : List (Addr × Byte)) (ps : List Ports) (n : Nat) :
    (s.withPorts ps n).writeBytes l = (s.writeBytes l).withPorts ps n := by
  induction l generalizing s with
  | nil => rfl
  | cons c rest ih => exact ih (s.writeByte c.1 c.2)

theorem State.setRegsFrom_withPorts (s : State) (k : Nat) (l : List Byte) (ps : List Ports) (n : Nat) :
    (s.withPorts ps n).setRegsFrom k l = (s.setRegsFrom k l).withPorts ps n := by
  induction l generalizing s k with
  | nil => rfl
  | cons b rest ih => exact ih (s.setReg (BitVec.ofNat 4 k) b) (k + 1)

theorem State.regsFrom_withPorts (s : State) (k count : Nat) (ps : List Ports) (n : Nat) :
    (s.withPorts ps n).regsFrom k count = s.regsFrom k count := by
  induction count generalizing k with
  | zero => rfl
  | succ m ih => exact congrArg (s.reg (BitVec.ofNat 4 k) :: ·) (ih (k + 1))

/-- An instruction that reads no port does the same on other port values. -/
theorem exec_withPorts {i : Instr} (s : State) (ps : List Ports) (n : Nat) (hi : readsPort i = false) :
    ∃ t, exec i s = .next t ∧ exec i (s.withPorts ps n) = .next (t.withPorts ps n) := by
  cases i
  case rnd | skp | sknp | ldVxDT | ldVxK => cases hi
  case ret =>
    by_cases h : 0 < s.sp.val
    · exact ⟨_, execRet_some h, execRet_some (s := s.withPorts ps n) h⟩
    · have h0 : s.sp = 0 := Fin.ext (Nat.eq_zero_of_not_pos h)
      exact ⟨_, execRet_empty h0, execRet_empty (s := s.withPorts ps n) h0⟩
  case call nnn =>
    by_cases h : s.sp.val < 16
    · exact ⟨_, execCall_some nnn h, execCall_some (s := s.withPorts ps n) nnn h⟩
    · have h16 : s.sp = 16 := Fin.ext (by have := s.sp.isLt; simp; omega)
      exact ⟨_, execCall_full nnn h16, execCall_full (s := s.withPorts ps n) nnn h16⟩
  case drw x y m =>
    by_cases h : s.accessInside m.toNat
    · exact ⟨_, execDrw_drawn x y m h, execDrw_drawn (s := s.withPorts ps n) x y m h⟩
    · exact ⟨_, execDrw_outside x y m h, execDrw_outside (s := s.withPorts ps n) x y m h⟩
  case ldBVx x =>
    by_cases h : s.accessInside 3
    · refine ⟨_, execLdBVx_inside x h, (execLdBVx_inside (s := s.withPorts ps n) x h).trans ?_⟩
      rw [State.writeBytes_withPorts]
      rfl
    · exact ⟨_, execLdBVx_outside x h, execLdBVx_outside (s := s.withPorts ps n) x h⟩
  case ldMemVx x =>
    by_cases h : s.accessInside (x.toNat + 1)
    · refine ⟨_, execLdMemVx_inside x h, (execLdMemVx_inside (s := s.withPorts ps n) x h).trans ?_⟩
      rw [State.writeBytes_withPorts, State.regsFrom_withPorts]
      rfl
    · exact ⟨_, execLdMemVx_outside x h, execLdMemVx_outside (s := s.withPorts ps n) x h⟩
  case ldVxMem x =>
    by_cases h : s.accessInside (x.toNat + 1)
    · refine ⟨_, execLdVxMem_inside x h, (execLdVxMem_inside (s := s.withPorts ps n) x h).trans ?_⟩
      rw [State.setRegsFrom_withPorts]
      rfl
    · exact ⟨_, execLdVxMem_outside x h, execLdVxMem_outside (s := s.withPorts ps n) x h⟩
  all_goals exact ⟨_, rfl, rfl⟩

/-- Settles O41: no handler but those that read a port depends on the lined-up values or the counter. -/
theorem portsMatterOnlyToTheirReaders : Obligations.PortsMatterOnlyToTheirReaders := by
  intro i s t ps n hi h
  obtain ⟨u, hu, hports⟩ := exec_withPorts s ps n hi
  obtain rfl := Host.Outcome.next.inj (hu.symm.trans h)
  exact hports

/-! ## Host operations (R44, R45) -/

theorem State.loadFrom_eq (s : State) (a : Nat) (l : List Byte) :
    s.loadFrom a l = { s with mem := (s.loadFrom a l).mem } := by
  induction l generalizing s a with
  | nil => rfl
  | cons b rest ih =>
    rw [State.loadFrom, ih]
    split <;> rfl

/-- The loader leaves every byte at or past the end of the program alone. -/
theorem State.readByte_loadFrom_above {s : State} {n : Nat} {l : List Byte} {a : Addr}
    (ha : n + l.length ≤ a.toNat) : (s.loadFrom n l).readByte a = s.readByte a := by
  induction l generalizing s n with
  | nil => rfl
  | cons b rest ih =>
    rw [List.length_cons] at ha
    rw [State.loadFrom, ih (by omega)]
    split
    · refine State.readByte_writeByte_ne fun h => ?_
      have := congrArg BitVec.toNat h
      rw [BitVec.toNat_ofNat] at this
      omega
    · rfl

/-- The byte at `n + k` after a load from `n` on is the k-th of the program, where that address exists (R44). -/
theorem State.readByte_loadFrom {s : State} {n k : Nat} {l : List Byte} (hwf : s.mem.wf = true)
    (hk : k < l.length) (hin : n + k < 4096) :
    (s.loadFrom n l).readByte (BitVec.ofNat 12 (n + k)) = l.getD k 0 := by
  induction l generalizing s n k with
  | nil => exact absurd hk (Nat.not_lt_zero k)
  | cons b rest ih =>
    rw [State.loadFrom, if_pos (by omega)]
    cases k with
    | zero =>
      have hbelow : (BitVec.ofNat 12 (n + 0)).toNat < n + 1 := by
        rw [BitVec.toNat_ofNat]
        omega
      rw [State.readByte_loadFrom_below hbelow]
      exact State.readByte_writeByte_same hwf
    | succ k =>
      rw [← Nat.add_assoc, Nat.add_right_comm, List.getD_cons_succ]
      exact ih (State.writeByte_wf _ _ hwf) (Nat.lt_of_succ_lt_succ hk) (by omega)

/-- Settles O53: by the byte at each place of the program, the bytes on either side, and the frame of the loader. -/
theorem loadCopiesProgramWithTruncation : Obligations.LoadCopiesProgramWithTruncation := by
  intro s bytes hwf
  refine ⟨fun k hk hin => State.readByte_loadFrom hwf hk hin, fun a ha => ?_, State.loadFrom_eq s 512 bytes⟩
  rcases ha with hlow | hhigh
  · exact State.readByte_loadFrom_below hlow
  · exact State.readByte_loadFrom_above hhigh

/-- Reset under parameters that give PC room for 0x0200 meets the invariant (R35). -/
theorem State.resetWith_inv {p : Params} (hp : 10 ≤ p.pcWidth) : (State.resetWith p).Inv := by
  refine ⟨State.resetWith_wf p, ?_, Nat.zero_le _, fun k => ?_, trivial⟩
  · calc 0x0200 < 2 ^ 10 := by decide
      _ ≤ 2 ^ p.pcWidth := Nat.pow_le_pow_right (by decide) hp
  · simp [State.resetWith]

/-- Settles O45: the default PC_WIDTH is 16. -/
theorem resetMeetsInvariant : Obligations.ResetMeetsInvariant :=
  State.resetWith_inv (by decide)

/-- Replacing memory by a canonical one keeps the invariant. -/
theorem State.Inv.withMem {s : State} {m : Memory} (h : s.Inv) (hm : m.wf = true) : { s with mem := m }.Inv := by
  obtain ⟨-, hrest⟩ := h
  exact ⟨hm, hrest⟩

/-- Settles O46: load changes memory alone and keeps it canonical, the invariant speaks of neither CHG nor the lined-up
values, and rst is the reset state but for what the collaborators present. -/
theorem hostOperationsKeepInvariant : Obligations.HostOperationsKeepInvariant := by
  intro s hs
  refine ⟨fun bytes => ?_, hs, fun _ => hs, fun hp => State.resetWith_inv hp⟩
  obtain ⟨hmem, -⟩ := id hs
  rw [State.load, State.loadFrom_eq]
  exact hs.withMem (State.loadFrom_wf 512 bytes hmem)

/-- Settles O54: each host operation is its definition. -/
theorem hostReadsAndClearsAreAsNamed : Obligations.HostReadsAndClearsAreAsNamed :=
  fun _ => ⟨⟨rfl, rfl, rfl, rfl, rfl, rfl, rfl⟩, rfl, rfl, fun _ => rfl, fun _ => rfl⟩

end Sys2Proof.Machine
end

section
/-! PROOFS. Memory and the index register: which instructions write them, what a run of stores leaves to be read, and
the fetch that reads it (20_memory.md). -/

namespace Sys2Proof.Machine

/-! ## Memory and the index register by instruction (R26, R51) -/

theorem Frame.keeps_byte {regs : RegSel → Prop} {bytes : Addr → Prop} {parts : List Part} {s t : State}
    (h : Frame regs bytes parts s t) {a : Addr} (ha : ¬ bytes a) : t.readByte a = s.readByte a := by
  obtain ⟨-, hbyte, -⟩ := h
  exact hbyte a ha

theorem Frame.keeps_index {regs : RegSel → Prop} {bytes : Addr → Prop} {parts : List Part} {s t : State}
    (h : Frame regs bytes parts s t) (hp : Part.index ∉ parts) : t.i = s.i := by
  obtain ⟨-, -, hindex, -⟩ := h
  exact hindex hp

theorem index_written_iff {i : Instr} : Part.index ∈ writtenParts i ↔ writesIndex i = true := by
  cases i <;> simp [writtenParts, writesIndex]

theorem not_writesByte {i : Instr} (s : State) (a : Addr) (hw : writesMemory i = false) : ¬ writesByte s i a := by
  rintro ⟨h, -⟩
  rw [hw] at h
  cases h

/-- Settles O49: a raise writes FAULT alone, and a completed handler frames the bytes and the index register its
instruction does not write. -/
theorem onlyNamedInstructionsWriteMemoryAndIndex : Obligations.OnlyNamedInstructionsWriteMemoryAndIndex := by
  intro i s t h
  rcases exec_next h with ⟨c, -, rfl⟩ | ⟨-, -, hframe, -⟩
  · exact ⟨fun _ _ => rfl, fun _ => rfl⟩
  · refine ⟨fun hw a => hframe.keeps_byte (not_writesByte s a hw), fun hw => hframe.keeps_index fun hp => ?_⟩
    rw [index_written_iff.mp hp] at hw
    cases hw

/-! ## The fetch (R52, R56, R102) -/

/-- Settles O7: the three sides of the fetch, the word of two bytes as a number. -/
theorem fetchReadsBigEndianWordOrPolicy : Obligations.FetchReadsBigEndianWordOrPolicy := by
  refine fun s => ⟨fun hpc => ⟨_, State.fetch_inside hpc, ?_⟩,
    fun hpc hp => ⟨State.fetch_substitute hpc hp, by decide⟩, State.fetch_fault⟩
  rw [toNat_wordOfBytes, Nat.mul_comm]

/-! ## Stores read back (R54, R63) -/

/-- The byte at I + k after an index-relative run of stores is the k-th byte stored. -/
theorem State.readByte_writeBytes_indexed {s : State} {n k : Nat} {vs : List Byte} (hwf : s.mem.wf = true)
    (hlen : vs.length = n) (hn : n ≤ 4096) (hk : k < vs.length) :
    (s.writeBytes (((List.range n).map s.indexed).zip vs)).readByte (s.indexed k) = vs[k] := by
  refine State.readByte_writeBytes_of_mem hwf ?_ ?_
  · rw [List.map_fst_zip (by simp [hlen])]
    exact s.nodup_indexed hn
  · exact List.mem_iff_getElem.mpr ⟨k, by simp; omega, by simp⟩

/-- LD [I], Vx puts V[k] at I + k, for every k up to X (R165). -/
theorem readByte_exec_ldMemVx {s t : State} {x : RegSel} {k : Nat} (hwf : s.mem.wf = true)
    (inside : s.accessInside (x.toNat + 1)) (h : exec (.ldMemVx x) s = .next t) (hk : k ≤ x.toNat) :
    t.readByte (s.indexed k) = s.reg (BitVec.ofNat 4 k) := by
  obtain rfl := Host.Outcome.next.inj ((execLdMemVx_inside x inside).symm.trans h)
  rw [State.readByte_setPc, State.readByte_setIndex,
    State.readByte_writeBytes_indexed hwf (State.length_regsFrom ..) (by omega) (by rw [State.length_regsFrom]; omega),
    State.getElem_regsFrom, Nat.zero_add]

theorem pcPlus_of_lt {s : State} {k : Nat} (h : s.pc + k < 2 ^ s.params.pcWidth) : pcPlus s k = s.pc + k :=
  Nat.mod_eq_of_lt h

/-- A step from an unfaulted block is its handler on the latched state, where the handler answers (R100). -/
theorem step_of_exec {s t : State} {w : Word} {i : Instr} (hfault : s.fault = .none) (hf : s.fetch = some w)
    (hd : decode w = .ok i) (h : exec i (s.clearOutput.latchOpcode w) = .next t) : step s = .next t.passInputs := by
  rw [step, cycle_fetched hfault hf, handleWord, hd]
  exact congrArg passInputsOf h

@[simp] theorem State.fetch_passInputs (s : State) : s.passInputs.fetch = s.fetch := rfl

/-- LD [I], V1 with I at the next instruction stores the two bytes the next fetch reads (R63). -/
theorem fetch_exec_ldMemVx_one {s t : State} (hwf : s.mem.wf = true) (hi : s.i.toNat = s.pc + 2)
    (hpc : s.pc + 3 < 4096) (hwidth : 12 ≤ s.params.pcWidth) (h : exec (.ldMemVx 1) s = .next t) :
    t.fetch = some (s.reg 0 ++ s.reg 1) := by
  have inside : s.accessInside ((1 : RegSel).toNat + 1) :=
    .inr (.inl (show s.i.toNat + 2 ≤ 4096 by omega))
  have hnext : t.pc = s.pc + 2 := by
    obtain rfl := Host.Outcome.next.inj ((execLdMemVx_inside 1 inside).symm.trans h)
    refine pcPlus_of_lt ?_
    calc s.pc + 2 < 2 ^ 12 := by omega
      _ ≤ 2 ^ s.params.pcWidth := Nat.pow_le_pow_right (by decide) hwidth
  have stored : ∀ k ≤ 1, t.readByte (BitVec.ofNat 12 (t.pc + k)) = s.reg (BitVec.ofNat 4 k) := by
    intro k hk
    rw [hnext, ← hi]
    exact readByte_exec_ldMemVx hwf inside h hk
  have stored0 : t.readByte (BitVec.ofNat 12 t.pc) = s.reg 0 := stored 0 (Nat.zero_le 1)
  rw [State.fetch_inside (by omega), stored0, stored 1 (Nat.le_refl 1)]
  rfl

/-- Settles O33: the step is the dump on the latched state, and the ports it passes are no part of the fetch. -/
theorem storedInstructionIsFetchedNext : Obligations.StoredInstructionIsFetchedNext := by
  intro s hfault hwf hfetch hi hpc hwidth
  have hd : decode 0xF155 = .ok (.ldMemVx 1) := by decide
  obtain ⟨t, ht⟩ := exec_total (.ldMemVx 1) (s.clearOutput.latchOpcode 0xF155)
  obtain ⟨hop, -⟩ := exec_keeps_cycle_state ht
  refine ⟨_, step_of_exec hfault hfetch hd ht, hop, ?_⟩
  rw [State.fetch_passInputs]
  exact fetch_exec_ldMemVx_one (s := s.clearOutput.latchOpcode 0xF155) hwf hi hpc hwidth ht

end Sys2Proof.Machine
end

section
/-! PROOFS. The opcode map row by row (30_encoding.md): the mask and match of a row, the word a row reads, the words
two rows share and the words no row matches; and from these the statements about decoding and encoding. -/

namespace Sys2Proof

open Machine

/-! ## What a matching word is (R83, R84) -/

theorem matchesPattern_iff {p : Pattern} {w : Word} : matchesPattern p w = true ↔
    fieldN1 w = p.n1 ∧ fits p.x (fieldX w) = true ∧ fits p.y (fieldY w) = true ∧ fits p.n (fieldN w) = true := by
  simp [matchesPattern, and_assoc]

theorem fits_some {c d : Nybble} : fits (some c) d = true ↔ d = c := beq_iff_eq

theorem wordOfAddr_of_matches {a : Nybble} {w : Word} (h : matchesPattern ⟨a, none, none, none⟩ w = true) :
    wordOfAddr a (fieldNNN w) = w := by
  obtain ⟨rfl, -⟩ := matchesPattern_iff.mp h
  exact wordOfAddr_fields w

theorem wordOfImm_of_matches {a : Nybble} {w : Word} (h : matchesPattern ⟨a, none, none, none⟩ w = true) :
    wordOfImm a (fieldX w) (fieldNN w) = w := by
  obtain ⟨rfl, -⟩ := matchesPattern_iff.mp h
  exact wordOfImm_fields w

theorem wordOfNybbles_of_matches {a : Nybble} {w : Word} (h : matchesPattern ⟨a, none, none, none⟩ w = true) :
    wordOfNybbles a (fieldX w) (fieldY w) (fieldN w) = w := by
  obtain ⟨rfl, -⟩ := matchesPattern_iff.mp h
  exact wordOfNybbles_fields w

theorem wordOfNybbles_of_matches_n {a n : Nybble} {w : Word} (h : matchesPattern ⟨a, none, none, some n⟩ w = true) :
    wordOfNybbles a (fieldX w) (fieldY w) n = w := by
  obtain ⟨rfl, -, -, hn⟩ := matchesPattern_iff.mp h
  obtain rfl := fits_some.mp hn
  exact wordOfNybbles_fields w

theorem wordOfImm_of_matches_nn {a y n : Nybble} {w : Word}
    (h : matchesPattern ⟨a, none, some y, some n⟩ w = true) : wordOfImm a (fieldX w) (y ++ n) = w := by
  obtain ⟨rfl, -, hy, hn⟩ := matchesPattern_iff.mp h
  obtain rfl := fits_some.mp hy
  obtain rfl := fits_some.mp hn
  exact fieldNN_eq w ▸ wordOfImm_fields w

theorem wordOfNybbles_of_matches_all {a x y n : Nybble} {w : Word}
    (h : matchesPattern ⟨a, some x, some y, some n⟩ w = true) : wordOfNybbles a x y n = w := by
  obtain ⟨rfl, hx, hy, hn⟩ := matchesPattern_iff.mp h
  obtain rfl := fits_some.mp hx
  obtain rfl := fits_some.mp hy
  obtain rfl := fits_some.mp hn
  exact wordOfNybbles_fields w

/-- A row drops no bit of a word it matches: what it reads is encoded as that word (R81, R87). -/
theorem encode_read (w : Word) : ∀ row ∈ opcodeMap, matchesPattern row.1 w = true → encode (row.2 w) = w := by
  simp only [opcodeMap, List.forall_mem_cons]
  have addr {a : Nybble} := @wordOfAddr_of_matches a w
  have imm {a : Nybble} := @wordOfImm_of_matches a w
  have xy {a n : Nybble} := @wordOfNybbles_of_matches_n a n w
  have sub {a y n : Nybble} := @wordOfImm_of_matches_nn a y n w
  have all {a x y n : Nybble} := @wordOfNybbles_of_matches_all a x y n w
  exact ⟨all, all, addr, addr, addr, imm, imm, xy, imm, imm,
    xy, xy, xy, xy, xy, xy, xy, xy, xy, xy,
    addr, addr, imm, wordOfNybbles_of_matches, sub, sub,
    sub, sub, sub, sub, sub, sub, sub, sub, sub, List.forall_mem_nil _⟩

/-! ## The row of an instruction (R87) -/

theorem ctorIdx_lt (i : Instr) : i.ctorIdx < opcodeMap.length := by
  cases i <;> exact Nat.le_of_ble_eq_true rfl

/-- The row of the opcode map an instruction stands in: the constructors of `Instr` are in the table's order. -/
def tableRow (i : Instr) : Pattern × (Word → Instr) := opcodeMap[i.ctorIdx]'(ctorIdx_lt i)

theorem tableRow_mem (i : Instr) : tableRow i ∈ opcodeMap := List.getElem_mem _

/-- An instruction's row reads it back from its word. -/
theorem read_encode (i : Instr) : (tableRow i).2 (encode i) = i := by
  cases i
  case cls | ret => rfl
  case sys | jp | call | ldI | jpV0 => exact congrArg _ (fieldNNN_wordOfAddr ..)
  case seVxNN | sneVxNN | ldVxNN | addVxNN | rnd =>
    exact congrArg₂ _ (fieldX_wordOfImm ..) (fieldNN_wordOfImm ..)
  case skp | sknp | ldVxDT | ldVxK | ldDTVx | ldSTVx | addIVx | ldFVx | ldBVx | ldMemVx | ldVxMem =>
    exact congrArg _ (fieldX_wordOfImm ..)
  case drw =>
    exact congr (congrArg₂ _ (fieldX_wordOfNybbles ..) (fieldY_wordOfNybbles ..)) (fieldN_wordOfNybbles ..)
  all_goals exact congrArg₂ _ (fieldX_wordOfNybbles ..) (fieldY_wordOfNybbles ..)

/-! ## Mask and match (R88) -/

/-- A place of a pattern in its mask: 0xF where the pattern fixes the nybble. -/
def maskOfPlace (place : Option Nybble) : Nybble := if place.isSome then 0xF else 0x0

/-- The mask of a pattern (R88). -/
def Pattern.mask (p : Pattern) : Word := wordOfNybbles 0xF (maskOfPlace p.x) (maskOfPlace p.y) (maskOfPlace p.n)

/-- The match of a pattern (R88). -/
def Pattern.matchWord (p : Pattern) : Word := wordOfNybbles p.n1 (p.x.getD 0x0) (p.y.getD 0x0) (p.n.getD 0x0)

theorem and_maskOfPlace_iff {place : Option Nybble} {d : Nybble} :
    d &&& maskOfPlace place = place.getD 0x0 ↔ fits place d = true := by
  cases place with
  | none => exact iff_of_true (and_zeros d) rfl
  | some c =>
    have hand : d &&& maskOfPlace (some c) = d := and_ones d
    rw [hand, fits_some]
    rfl

theorem wordOfNybbles_inj {a b c d e f g h : Nybble} :
    wordOfNybbles a b c d = wordOfNybbles e f g h ↔ a = e ∧ b = f ∧ c = g ∧ d = h := by
  refine ⟨fun heq => ⟨?_, ?_, ?_, ?_⟩, by rintro ⟨rfl, rfl, rfl, rfl⟩; rfl⟩
  · simpa using congrArg fieldN1 heq
  · simpa using congrArg fieldX heq
  · simpa using congrArg fieldY heq
  · simpa using congrArg fieldN heq

/-- A word matches a pattern when it lies under its mask at its match (R88). -/
theorem and_mask_iff {p : Pattern} {w : Word} : w &&& p.mask = p.matchWord ↔ matchesPattern p w = true := by
  have hand : w &&& p.mask = wordOfNybbles (fieldN1 w &&& 0xF) (fieldX w &&& maskOfPlace p.x)
      (fieldY w &&& maskOfPlace p.y) (fieldN w &&& maskOfPlace p.n) := by
    rw [← and_wordOfNybbles, wordOfNybbles_fields]
    rfl
  rw [hand, Pattern.matchWord, wordOfNybbles_inj, and_ones, and_maskOfPlace_iff, and_maskOfPlace_iff,
    and_maskOfPlace_iff, matchesPattern_iff]

/-- The mask and match of a row are those of what it reads. -/
theorem mask_match_read (w : Word) :
    ∀ row ∈ opcodeMap, row.1.mask = opcodeMask (row.2 w) ∧ row.1.matchWord = opcodeMatch (row.2 w) := by
  unfold opcodeMap
  repeat refine List.forall_mem_cons.mpr ⟨⟨rfl, rfl⟩, ?_⟩
  exact List.forall_mem_nil _

theorem mask_match_tableRow (i : Instr) :
    (tableRow i).1.mask = opcodeMask i ∧ (tableRow i).1.matchWord = opcodeMatch i := by
  have h := mask_match_read (encode i) (tableRow i) (tableRow_mem i)
  rwa [read_encode] at h

theorem matches_tableRow_iff {i : Instr} {w : Word} :
    matchesPattern (tableRow i).1 w = true ↔ w &&& opcodeMask i = opcodeMatch i := by
  obtain ⟨hmask, hmatch⟩ := mask_match_tableRow i
  rw [← and_mask_iff, hmask, hmatch]

theorem encode_and_opcodeMask (i : Instr) : encode i &&& opcodeMask i = opcodeMatch i := by
  cases i
  case cls | ret => decide
  case sys | jp | call | ldI | jpV0 => exact Laws.MaskMatch.addrRow ..
  case seVxNN | sneVxNN | ldVxNN | addVxNN | rnd => exact Laws.MaskMatch.immRow ..
  case skp | sknp | ldVxDT | ldVxK | ldDTVx | ldSTVx | addIVx | ldFVx | ldBVx | ldMemVx | ldVxMem =>
    exact Laws.MaskMatch.subRow ..
  case drw => exact mask_class ..
  all_goals exact mask_class_n ..

/-- The word an instruction is encoded as matches its row. -/
theorem matches_encode (i : Instr) : matchesPattern (tableRow i).1 (encode i) = true :=
  matches_tableRow_iff.mpr (encode_and_opcodeMask i)

/-! ## The words two rows share (R83) -/

theorem matches_both {p q : Pattern} {w : Word} (hp : matchesPattern p w = true) (hq : matchesPattern q w = true) :
    p.matchWord &&& q.mask = q.matchWord &&& p.mask := by
  rw [← and_mask_iff.mpr hp, ← and_mask_iff.mpr hq]
  ac_rfl

/-- Of two rows of the map, the masks and matches are at odds, or the earlier one is 00E0 or 00EE. -/
theorem opcodeMap_pairwise : opcodeMap.Pairwise fun r q =>
    r.1.matchWord &&& q.1.mask ≠ q.1.matchWord &&& r.1.mask ∨
      r.1 = ⟨0x0, some 0x0, some 0xE, some 0x0⟩ ∨ r.1 = ⟨0x0, some 0x0, some 0xE, some 0xE⟩ := by decide

/-- No word but 00E0 and 00EE matches both rows. -/
def SharesOnlyClsRet (r q : Pattern × (Word → Instr)) : Prop :=
  ∀ w, matchesPattern r.1 w = true → matchesPattern q.1 w = true → w = 0x00E0 ∨ w = 0x00EE

theorem sharesOnlyClsRet_pairwise : opcodeMap.Pairwise SharesOnlyClsRet := by
  refine opcodeMap_pairwise.imp ?_
  rintro r q (hne | hr | hr) w hmr hmq
  · exact absurd (matches_both hmr hmq) hne
  · exact .inl (wordOfNybbles_of_matches_all (hr ▸ hmr)).symm
  · exact .inr (wordOfNybbles_of_matches_all (hr ▸ hmr)).symm

/-- A word other than 00E0 and 00EE matches at most one row (R83). -/
theorem row_unique {r q : Pattern × (Word → Instr)} {w : Word} (hr : r ∈ opcodeMap) (hq : q ∈ opcodeMap)
    (hmr : matchesPattern r.1 w = true) (hmq : matchesPattern q.1 w = true) : r = q ∨ w = 0x00E0 ∨ w = 0x00EE := by
  have hsymm : Std.Symm SharesOnlyClsRet := ⟨fun _ _ h v hb ha => h v ha hb⟩
  exact or_iff_not_imp_left.mpr fun hne => sharesOnlyClsRet_pairwise.forall hr hq hne w hmr hmq

theorem decode_00E0 : decode 0x00E0 = .ok .cls := by decide

theorem decode_00EE : decode 0x00EE = .ok .ret := by decide

theorem read_00E0 : ∀ row ∈ opcodeMap, matchesPattern row.1 0x00E0 = true →
    row.2 0x00E0 = .cls ∨ row.2 0x00E0 = .sys (fieldNNN 0x00E0) := by decide

theorem read_00EE : ∀ row ∈ opcodeMap, matchesPattern row.1 0x00EE = true →
    row.2 0x00EE = .ret ∨ row.2 0x00EE = .sys (fieldNNN 0x00EE) := by decide

/-- A word decodes to what any row it matches reads, but where that is the SYS that CLS and RET rank above (R83). -/
theorem decode_of_matches {w : Word} {row : Pattern × (Word → Instr)} (hrow : row ∈ opcodeMap)
    (hm : matchesPattern row.1 w = true) :
    decode w = .ok (row.2 w) ∨ (row.2 w = .sys (fieldNNN w) ∧ (decode w = .ok .cls ∨ decode w = .ok .ret)) := by
  cases h : decode w with
  | error e =>
    obtain ⟨-, hnone⟩ := decodeWith_error_iff.mp h
    rw [hnone row hrow] at hm
    cases hm
  | ok i =>
    obtain ⟨first, hfirst, hmfirst, rfl⟩ := decodeWith_ok h
    rcases row_unique hrow hfirst hm hmfirst with rfl | rfl | rfl
    · exact .inl rfl
    · rw [← h, decode_00E0]
      exact (read_00E0 row hrow hm).imp (congrArg Except.ok ·.symm) (⟨·, .inl rfl⟩)
    · rw [← h, decode_00EE]
      exact (read_00EE row hrow hm).imp (congrArg Except.ok ·.symm) (⟨·, .inr rfl⟩)

/-! ## The round trips -/

theorem encode_of_decode {w : Word} {i : Instr} (h : decode w = .ok i) : encode i = w := by
  obtain ⟨row, hrow, hm, rfl⟩ := decodeWith_ok h
  exact encode_read w row hrow hm

theorem not_wellFormed {i : Instr} (h : i.wellFormed = false) : i = .sys 0x0E0 ∨ i = .sys 0x0EE := by
  cases i
  case sys nnn => simpa [Instr.wellFormed, ← or_iff_not_imp_left] using h
  all_goals cases h

/-- The two words that would read as a SYS that is not well-formed are CLS and RET (R83). -/
theorem wellFormed_of_decode {w : Word} {i : Instr} (h : decode w = .ok i) : i.wellFormed = true := by
  refine (Bool.eq_false_or_eq_true _).resolve_right fun hi => ?_
  obtain rfl := encode_of_decode h
  rcases not_wellFormed hi with rfl | rfl
  · exact absurd h (by decide)
  · exact absurd h (by decide)

theorem decode_encode {i : Instr} (hi : i.wellFormed = true) : decode (encode i) = .ok i := by
  have hread := decode_of_matches (tableRow_mem i) (matches_encode i)
  rw [read_encode] at hread
  rcases hread with h | ⟨hsys, h | h⟩
  · exact h
  all_goals
    rw [hsys, ← encode_of_decode h] at hi
    exact absurd hi (by decide)

/-- Settles O2: the row of the instruction matches its word, and reads it back. -/
theorem decodeOfEncodeIsIdentity : Obligations.DecodeOfEncodeIsIdentity := by
  intro i rest hi
  refine ⟨decode_encode hi, ?_⟩
  simp [encodeBytes, decodeBytes, decode_encode hi]

/-- Settles O3: the row that decodes the word drops no bit of it, and no word decodes to SYS 0E0 or SYS 0EE. -/
theorem encodeOfDecodeIsIdentity : Obligations.EncodeOfDecodeIsIdentity :=
  fun _ _ h => ⟨encode_of_decode h, wellFormed_of_decode h⟩

/-- Settles O5: a row whose mask and match the word meets reads the decoded instruction, or is 0NNN. -/
theorem decodedWordMatchesOneRow : Obligations.DecodedWordMatchesOneRow := by
  intro w i h
  refine ⟨encode_of_decode h ▸ encode_and_opcodeMask i, fun j hj => ?_⟩
  obtain ⟨-, hmatch⟩ := mask_match_tableRow j
  obtain ⟨-, hread⟩ := mask_match_read w _ (tableRow_mem j)
  rw [← hmatch, hread]
  rcases decode_of_matches (tableRow_mem j) (matches_tableRow_iff.mpr hj) with hd | ⟨hsys, hd⟩
  · obtain rfl := Except.ok.inj (h.symm.trans hd)
    exact .inl rfl
  · rw [h, Except.ok.injEq, Except.ok.injEq] at hd
    exact .inr ⟨congrArg opcodeMatch hsys, hd⟩

/-! ## The words of R85 -/

/-- No row matches exactly the words R85 lists. A class that fixes no low place has a row for each of its words; in the
classes 5, 8, 9, E and F the rows and the list of R85 share out the values of N or NN (R84). -/
theorem no_row_matches_iff {w : Word} :
    (∀ row ∈ opcodeMap, matchesPattern row.1 w = false) ↔ matchesNothing w := by
  have hclass : (fieldN1 w).toNat < 16 := (fieldN1 w).isLt
  have hn : (fieldN w).toNat < 16 := (fieldN w).isLt
  have low (k : Nat) : (fieldY w).toNat * 16 + (fieldN w).toNat = k ↔
      (fieldY w).toNat = k / 16 ∧ (fieldN w).toNat = k % 16 := by omega
  rw [matchesNothing, ← toNat_fieldN1, ← toNat_fieldN, ← toNat_fieldNN, fieldNN_eq]
  simp only [opcodeMap, List.forall_mem_cons, matchesPattern, fits, Bool.and_eq_false_iff, beq_eq_false_iff_ne, ne_eq,
    ← BitVec.toNat_inj, toNat_append_add, noPatternFields]
  generalize (fieldN1 w).toNat = n1 at *
  interval_cases n1 <;> simp [low, -not_and, not_and_or]
  -- left is class 8, where R85 lists the values of N that R84 does not
  omega

/-- A step that fetches a word of no instruction moves PC past it and latches OP (R85, R132). -/
theorem step_of_no_pattern {s : State} {w : Word} {e : DecodeError} (hfault : s.fault = .none)
    (hf : s.fetch = some w) (hd : decode w = .error e) :
    step s = .next ((s.clearOutput.latchOpcode w).setPc (pcPlus s 2)).passInputs := by
  rw [step, cycle_fetched hfault hf, handleWord, hd]
  rfl

/-- Settles O4: a word is rejected where no row matches it, and the no-operation handler completes with Advance. -/
theorem unknownWordsRunAsNoOperation : Obligations.UnknownWordsRunAsNoOperation := by
  have rejected (w : Word) : decode w = .error (.noPattern w) ↔ matchesNothing w := by
    rw [decode, decodeWith_error_iff, no_row_matches_iff]
    exact and_iff_right rfl
  exact ⟨rejected, fun s w hfault hf hw => ⟨_, step_of_no_pattern hfault hf ((rejected w).mpr hw), rfl, rfl⟩⟩

/-- Settles O1: each word is run through the decoder. -/
theorem specWordsDecode : Obligations.SpecWordsDecode := by
  unfold Obligations.SpecWordsDecode
  decide

end Sys2Proof
end

section
/-! PROOFS. The cycle of 40_cycle.md: what a step is inside and outside memory, the opcode it latches, and the
directive each handler ends with. -/

namespace Sys2Proof.Machine

/-! ## The step by what the fetch answers (R100, R102, R103) -/

/-- Settles O6: the fetch answers the word at PC, and a handler always answers. -/
theorem stepRunsDecodedInstruction : Obligations.StepRunsDecodedInstruction := by
  intro s i hfault hpc hdec
  refine ⟨wellFormed_of_decode hdec, ?_⟩
  obtain ⟨t, ht⟩ := exec_total i (s.clearOutput.latchOpcode
    (wordOfBytes (s.readByte (BitVec.ofNat 12 s.pc)) (s.readByte (BitVec.ofNat 12 (s.pc + 1)))))
  exact (step_of_exec hfault (State.fetch_inside hpc) hdec ht).trans (congrArg passInputsOf ht).symm

/-- Settles O8: the substituted word decodes to SYS 0x000, whose handler emits its request and advances. -/
theorem outOfBoundsStepRunsSysZero : Obligations.OutOfBoundsStepRunsSysZero := by
  intro s hfault hpc hp
  have hdec : decode 0x0000 = .ok (.sys 0x000) := by decide
  exact ⟨_, step_of_exec hfault (State.fetch_substitute hpc hp) hdec rfl, rfl, rfl⟩

/-- Settles O9: the fetch answers no word, and the raise writes FAULT alone. -/
theorem outOfBoundsStepRaisesFetchBounds : Obligations.OutOfBoundsStepRaisesFetchBounds :=
  fun _ hfault hpc hp => ⟨_, cycle_noFetch hfault (State.fetch_fault hpc hp), rfl, rfl⟩

/-- OP after the cycle of an unfaulted block: the word the fetch answered, or OP as it was (R103). -/
theorem Cycled.op_eq {s u : State} (h : Cycled s u) (hfault : s.fault = .none) : u.op = s.fetch.getD s.op := by
  cases h with
  | faulted hne => exact absurd hfault hne
  | noFetch _ hfetch => rw [hfetch]; rfl
  | ran w i _ _ hfetch _ hexec =>
    obtain ⟨hop, -⟩ := exec_keeps_cycle_state hexec
    rw [hop, hfetch]
    rfl
  | noPattern w e _ hfetch => rw [hfetch]; rfl

/-- Settles O10: the end of a step passes the ports and keeps OP. -/
theorem fetchLatchesOpcode : Obligations.FetchLatchesOpcode := by
  intro s hfault
  obtain ⟨u, hstep, hu⟩ := step_cycled s
  have hop : u.passInputs.op = s.fetch.getD s.op := hu.op_eq hfault
  exact ⟨_, hstep, fun w hf => by rw [hop, hf]; rfl, fun hf => by rw [hop, hf]; rfl⟩

/-- Settles O12: each way a step can go answers a next state. -/
theorem stepIsTotal : Obligations.StepIsTotal := by
  intro s
  obtain ⟨u, hstep, -⟩ := step_cycled s
  exact ⟨u.passInputs, hstep⟩

/-! ## The directive column (R106, R107) -/

/-- The directives a handler of each class may return, from the state it runs on (R107). -/
inductive DirectiveClass.Admits (s : State) : DirectiveClass → Directive → Prop
  | advance : Admits s .advance .advance
  | skip (c : Bool) : Admits s .skip (skipIf c)
  | jump (a : Nat) : Admits s .jump (.jump a)
  /-- The key wait with a key down (R205). -/
  | taken : Admits s .wait .advance
  /-- The key wait with no key down: its own address (R205). -/
  | again : Admits s .wait (.jump s.pc)

/-- A handler that raises nothing ends with a directive of its row's class. -/
theorem exec_directive {i : Instr} {s : State} (hq : ∀ c, ¬ raisesCause i s c) :
    ∃ (t : State) (d : Directive), exec i s = .next (t.setPc (resolvePc s.params d s.pc)) ∧
      (directiveClass i).Admits s d := by
  cases i
  case ret => exact ⟨_, .jump _, execRet_some (ret_not_empty hq), .jump _⟩
  case call nnn => exact ⟨_, .jump _, execCall_some nnn (call_not_full hq), .jump _⟩
  case jp | jpV0 => exact ⟨_, _, rfl, .jump _⟩
  case seVxNN | sneVxNN | seVxVy | sneVxVy | skp | sknp => exact ⟨_, _, rfl, .skip _⟩
  case ldVxK x =>
    by_cases hk : s.keyDown = 0
    · exact ⟨_, _, execLdVxK_noKey x hk, .again⟩
    · exact ⟨_, .advance, execLdVxK_key x hk, .taken⟩
  case drw x y n => exact ⟨_, .advance, execDrw_drawn x y n (accessInside_of_quiet hq rfl), .advance⟩
  case ldBVx x => exact ⟨_, .advance, execLdBVx_inside x (accessInside_of_quiet hq rfl), .advance⟩
  case ldMemVx x => exact ⟨_, .advance, execLdMemVx_inside x (accessInside_of_quiet hq rfl), .advance⟩
  case ldVxMem x => exact ⟨_, .advance, execLdVxMem_inside x (accessInside_of_quiet hq rfl), .advance⟩
  all_goals exact ⟨_, _, rfl, .advance⟩

/-- Settles O13: a raise from an unfaulted state leaves a fault, and each directive a class admits resolves to a PC
value of its clause (R108 to R110). -/
theorem pcFollowsDirectiveClass : Obligations.PcFollowsDirectiveClass := by
  intro i s t hfault h hfault'
  rcases exec_next h with ⟨c, hc, rfl⟩ | ⟨hq, -⟩
  · exact absurd (hfault'.trans hfault.symm) (setFault_ne_of_raises hc hfault)
  obtain ⟨u, d, he, hd⟩ := exec_directive hq
  obtain rfl := Host.Outcome.next.inj (he.symm.trans h)
  rw [State.setPc_pc]
  generalize directiveClass i = k at hd
  cases hd with
  | advance => exact resolvePc_advance s
  | skip c => cases c with
    | false => exact .inl rfl
    | true => exact .inr rfl
  | jump a => exact resolvePc_lt ..
  | taken => exact .inl rfl
  | again => exact .inr rfl

end Sys2Proof.Machine
end

section
/-! PROOFS. Control flow (41_control_flow.md): the jumps, the skips, CALL and RET on the slot they use, and the round
trip from a CALL to the RET at its target. -/

namespace Sys2Proof.Machine

/-! ## Events and jumps (R121, R124, R131) -/

/-- Settles O15: the word is that of a well-formed SYS, whose handler emits and advances. -/
theorem sysEmitsRequestAndAdvances : Obligations.SysEmitsRequestAndAdvances := by
  refine fun nnn s => ⟨fun hcls hret => ?_, _, rfl, rfl, rfl, Frame.ofEvent ..⟩
  exact decode_encode (i := .sys nnn) (by simpa [Instr.wellFormed] using ⟨hcls, hret⟩)

/-- Settles O18: both handlers write the resolved target into PC and nothing else. -/
theorem jumpsSetPcAlone : Obligations.JumpsSetPcAlone := by
  refine fun nnn s => ⟨decode_encode (i := .jp nnn) rfl, decode_encode (i := .jpV0 nnn) rfl,
    ⟨_, rfl, ?_, Frame.ofPc ..⟩, _, rfl, rfl, Frame.ofPc ..⟩
  exact congrArg (wrapPc s.params) (toNat_zext16 nnn)

/-! ## Skips (R125 to R128) -/

/-- A handler that ends with a skip moves PC by 4 or by 2 and writes nothing else. -/
theorem State.complete_skipIf (s : State) (c : Bool) : ∃ t, s.complete (skipIf c) = .next t ∧
    (c = true → t.pc = pcPlus s 4) ∧ (c = false → t.pc = pcPlus s 2) ∧ Frame noReg noByte [] s t := by
  refine ⟨_, s.complete_eq _, ?_, ?_, Frame.ofPc ..⟩
  · rintro rfl; rfl
  · rintro rfl; rfl

/-- SE skips where the two values are equal as unsigned numbers. -/
theorem State.complete_skipIf_eq (s : State) (a b : Byte) : ∃ t, s.complete (skipIf (a == b)) = .next t ∧
    (a.toNat = b.toNat → t.pc = pcPlus s 4) ∧ (a.toNat ≠ b.toNat → t.pc = pcPlus s 2) ∧
    Frame noReg noByte [] s t := by
  simpa [← BitVec.toNat_inj] using s.complete_skipIf (a == b)

/-- SNE skips where the two values differ as unsigned numbers. -/
theorem State.complete_skipIf_ne (s : State) (a b : Byte) : ∃ t, s.complete (skipIf (a != b)) = .next t ∧
    (a.toNat ≠ b.toNat → t.pc = pcPlus s 4) ∧ (a.toNat = b.toNat → t.pc = pcPlus s 2) ∧
    Frame noReg noByte [] s t := by
  simpa [← BitVec.toNat_inj] using s.complete_skipIf (a != b)

/-- Settles O19: the handlers compare V[X] with NN and end with a skip. -/
theorem immediateSkipsCompare : Obligations.ImmediateSkipsCompare := fun x nn s =>
  ⟨decode_encode (i := .seVxNN x nn) rfl, decode_encode (i := .sneVxNN x nn) rfl,
    s.complete_skipIf_eq (s.reg x) nn, s.complete_skipIf_ne (s.reg x) nn⟩

/-- The words of the classes 5 and 9 with a last nybble other than 0 are words of R85. -/
theorem decode_register_skip_ne_ok {a x y n : Nybble} (ha : a = 0x5 ∨ a = 0x9) (hn : n ≠ 0) (i : Instr) :
    decode (wordOfNybbles a x y n) ≠ .ok i := by
  obtain ⟨rejected, -⟩ := unknownWordsRunAsNoOperation
  have hnothing : matchesNothing (wordOfNybbles a x y n) := by
    have hn0 : n.toNat ≠ 0 := fun h => hn (BitVec.eq_of_toNat_eq h)
    rw [matchesNothing, ← toNat_fieldN1, ← toNat_fieldN, fieldN1_wordOfNybbles, fieldN_wordOfNybbles]
    rcases ha with rfl | rfl
    · exact .inl ⟨rfl, hn0⟩
    · exact .inr (.inr (.inl ⟨rfl, hn0⟩))
  rw [(rejected _).mpr hnothing]
  exact nofun

/-- Settles O20: the handlers compare V[X] with V[Y] and end with a skip. -/
theorem registerSkipsCompare : Obligations.RegisterSkipsCompare := fun x y s =>
  ⟨decode_encode (i := .seVxVy x y) rfl, decode_encode (i := .sneVxVy x y) rfl,
    fun _ hn i => ⟨decode_register_skip_ne_ok (.inl rfl) hn i, decode_register_skip_ne_ok (.inr rfl) hn i⟩,
    s.complete_skipIf_eq (s.reg x) (s.reg y), s.complete_skipIf_ne (s.reg x) (s.reg y)⟩

/-! ## CALL and RET on the slot they use (R122, R123) -/

/-- RET with slot `k` on top goes to the address there, and keeps it. -/
theorem execRet_top {s : State} {k : Fin 16} (h : s.sp.val = k.val + 1) :
    execRet s = .next ((s.setStack s.stack k.castSucc).setPc (wrapPc s.params s.stack[k.val].toNat)) := by
  rw [execRet_some (by omega)]
  simp only [h, Nat.add_sub_cancel]
  rfl

/-- CALL with slot `k` free puts the address of the next word there. -/
theorem execCall_free {s : State} {k : Fin 16} (nnn : Addr) (h : s.sp.val = k.val) :
    execCall nnn s = .next ((s.setStack (s.stack.set k.val (BitVec.ofNat 16 (pcPlus s 2))) k.succ).setPc
      (wrapPc s.params nnn.toNat)) := by
  rw [execCall_some nnn (by omega)]
  simp only [h]
  rfl

/-- Settles O16: the two sides of the pop. -/
theorem retPopsOrUnderflows : Obligations.RetPopsOrUnderflows :=
  ⟨decode_00EE, fun _ => ⟨execRet_empty, fun _ hk => ⟨_, execRet_top hk, rfl, rfl, rfl, Frame.ofStack ..⟩⟩⟩

/-- Settles O17: the two sides of the push. -/
theorem callPushesOrOverflows : Obligations.CallPushesOrOverflows := by
  refine fun nnn s => ⟨decode_encode (i := .call nnn) rfl, execCall_full nnn, fun k hk =>
    ⟨_, execCall_free nnn hk, rfl, ?_, fun j hj => ?_, rfl, Frame.ofStack ..⟩⟩
  · simp
  · have hne : k.val ≠ j.val := fun h => hj (Fin.ext h.symm)
    simp [hne]

/-! ## The round trip (R129) -/

/-- A PC of at least 12 bits holds every address. -/
theorem wrapPc_addr {p : Params} (hwidth : 12 ≤ p.pcWidth) (nnn : Addr) : wrapPc p nnn.toNat = nnn.toNat :=
  Nat.mod_eq_of_lt (nnn.isLt.trans_le (Nat.pow_le_pow_right (by decide) hwidth))

/-- The fetch at an address that is not the last (R52, R102). -/
theorem State.fetch_at {s : State} {a : Addr} (hpc : s.pc = a.toNat) (ha : a.toNat + 1 < 4096) :
    s.fetch = some (wordOfBytes (s.readByte a) (s.readByte (a + 1))) := by
  have hnext : BitVec.ofNat 12 (a.toNat + 1) = a + 1 := by simp [BitVec.ofNat_add]
  rw [State.fetch_inside (by omega), hpc, hnext, BitVec.ofNat_toNat, BitVec.setWidth_eq]

/-- The address a CALL inside memory pushes fits its slot (R123). -/
theorem toNat_returnAddr {s : State} (h : s.pc + 1 < 4096) : (BitVec.ofNat 16 (pcPlus s 2)).toNat = pcPlus s 2 := by
  have hle : pcPlus s 2 ≤ s.pc + 2 := Nat.mod_le ..
  rw [BitVec.toNat_ofNat]
  omega

/-- The step of a CALL with slot `k` free. -/
theorem step_call_free {s : State} {nnn : Addr} {k : Fin 16} (hfault : s.fault = .none)
    (hfetch : s.fetch = some (0x2#4 ++ nnn)) (hk : s.sp.val = k.val) :
    ∃ t, step s = .next t ∧ t.fault = .none ∧ t.mem = s.mem ∧ t.params = s.params ∧ t.sp.val = k.val + 1 ∧
      t.stack = s.stack.set k.val (BitVec.ofNat 16 (pcPlus s 2)) ∧ t.pc = wrapPc s.params nnn.toNat :=
  ⟨_, step_of_exec hfault hfetch (decode_encode (i := .call nnn) rfl)
    (execCall_free (s := s.clearOutput.latchOpcode _) nnn hk), hfault, rfl, rfl, rfl, rfl, rfl⟩

/-- The step of a RET with slot `k` on top. -/
theorem step_ret_top {s : State} {k : Fin 16} (hfault : s.fault = .none) (hfetch : s.fetch = some 0x00EE)
    (hk : s.sp.val = k.val + 1) :
    ∃ t, step s = .next t ∧ t.sp.val = k.val ∧ t.stack = s.stack ∧ t.pc = wrapPc s.params s.stack[k.val].toNat :=
  ⟨_, step_of_exec hfault hfetch decode_00EE (execRet_top (s := s.clearOutput.latchOpcode _) hk), rfl, rfl, rfl⟩

/-- Settles O21: the CALL fills slot `k` and stands at its target, where the RET is fetched and takes slot `k`. -/
theorem callThenReturnRoundTrip : Obligations.CallThenReturnRoundTrip := by
  intro s nnn k hfault hfetch hk hwidth hnnn hhigh hlow
  have hinside : s.pc + 1 < 4096 := State.fetch_call_inside hfetch (decode_encode (i := .call nnn) rfl)
  obtain ⟨t, hcall, htfault, htmem, htparams, htsp, htstack, htpc⟩ := step_call_free hfault hfetch hk
  have htfetch : t.fetch = some 0x00EE := by
    have hread (a : Addr) : t.readByte a = s.readByte a := congrArg (lookupByte a.toNat) htmem
    rw [State.fetch_at (htpc.trans (wrapPc_addr hwidth nnn)) hnnn, hread, hread, hhigh, hlow]
    rfl
  obtain ⟨u, hret, husp, hustack, hupc⟩ := step_ret_top htfault htfetch htsp
  have hslot : t.stack[k.val].toNat = pcPlus s 2 := by
    simp only [htstack, Vector.getElem_set_self]
    exact toNat_returnAddr hinside
  refine ⟨t, u, hcall, hret, ?_, Fin.ext (husp.trans hk.symm), ?_⟩
  · rw [hupc, hslot, htparams]
    exact Nat.mod_mod ..
  · simp only [hustack, hslot]

end Sys2Proof.Machine
end

section
/-! PROOFS. The arithmetic/logic unit (42_alu.md): what the two shapes of its handlers leave, one register written or
one register and then the flag, and each result and flag as a number. -/

namespace Sys2Proof.Machine

/-! ## The two shapes of a handler (R140, R147) -/

/-- A handler that writes one register and advances. -/
theorem State.complete_setReg (s : State) (x : RegSel) (b : Byte) :
    ∃ t, (s.setReg x b).complete .advance = .next t ∧ t.reg x = b ∧ t.pc = pcPlus s 2 ∧ Frame (· = x) noByte [] s t :=
  ⟨_, State.complete_eq .., State.reg_setReg_same .., rfl, Frame.ofReg ..⟩

/-- A handler that writes one register, then the flag, and advances: the register's result stays where X is not F. -/
theorem State.complete_setRegAndFlag (s : State) (x : RegSel) {b : Byte} {f : Bool} {flag result : Nat}
    (hflag : (flagByte f).toNat = flag) (hresult : b.toNat = result) :
    ∃ t, (s.setRegAndFlag x b f).complete .advance = .next t ∧ (t.reg 0xF).toNat = flag ∧
      (x ≠ 0xF → (t.reg x).toNat = result) ∧ t.pc = pcPlus s 2 ∧ Frame (fun r => r = x ∨ r = 0xF) noByte [] s t := by
  refine ⟨_, State.complete_eq .., ?_, fun hx => ?_, rfl, Frame.ofRegAndFlag ..⟩
  · rw [State.reg_setPc, State.reg_setRegAndFlag, if_pos rfl, hflag]
  · rw [State.reg_setPc, State.reg_setRegAndFlag, if_neg hx, if_pos rfl, hresult]

/-! ## Results and flags as numbers (R24, R148 to R152) -/

theorem toNat_flagByte_carryOut (a b : Byte) :
    (flagByte (carryOut a b)).toNat = if a.toNat + b.toNat > 255 then 1 else 0 := by
  simp [toNat_flagByte, carryOut]

theorem toNat_flagByte_noBorrow (a b : Byte) :
    (flagByte (noBorrow a b)).toNat = if a.toNat ≥ b.toNat then 1 else 0 := by
  simp [toNat_flagByte, noBorrow]

/-- A flag that is a bit of a byte is the digit there. -/
theorem toNat_flagByte_getLsbD (b : Byte) (k : Nat) : (flagByte (b.getLsbD k)).toNat = b.toNat / 2 ^ k % 2 := by
  rw [← Nat.toNat_testBit, toNat_flagByte, BitVec.getLsbD]
  cases b.toNat.testBit k <;> rfl

theorem toNat_flagByte_lowBit (b : Byte) : (flagByte (lowBit b)).toNat = b.toNat % 2 := by
  rw [lowBit, toNat_flagByte_getLsbD, Nat.pow_zero, Nat.div_one]

/-- Bit 7 is the highest digit of a byte. -/
theorem toNat_flagByte_highBit (b : Byte) : (flagByte (highBit b)).toNat = b.toNat / 128 := by
  rw [highBit, toNat_flagByte_getLsbD]
  have := b.isLt
  omega

theorem toNat_sub_byte (a b : Byte) : (a - b).toNat = (a.toNat + 256 - b.toNat) % 256 := by
  rw [BitVec.toNat_sub]
  have := b.isLt
  omega

theorem toNat_ushiftRight_one (b : Byte) : (b >>> 1).toNat = b.toNat / 2 := by
  rw [BitVec.toNat_ushiftRight, Nat.shiftRight_one]

theorem toNat_shiftLeft_one (b : Byte) : (b <<< 1).toNat = b.toNat * 2 % 256 := by
  rw [BitVec.toNat_shiftLeft, Nat.shiftLeft_eq]

/-! ## The instructions -/

/-- Settles O22: both handlers write one register, by NN or by the wrapped sum. -/
theorem immediateLoadAndAdd : Obligations.ImmediateLoadAndAdd := by
  refine fun x nn s => ⟨decode_encode (i := .ldVxNN x nn) rfl, decode_encode (i := .addVxNN x nn) rfl,
    s.complete_setReg x nn, ?_⟩
  obtain ⟨t, ht, hreg, hrest⟩ := s.complete_setReg x (s.reg x + nn)
  exact ⟨t, ht, by rw [hreg, BitVec.toNat_add], hrest⟩

/-- Settles O23: the four handlers write one register, and a bitwise form acts bit by bit. -/
theorem moveAndBitwiseForms : Obligations.MoveAndBitwiseForms := by
  refine fun x y s => ⟨decode_encode (i := .ldVxVy x y) rfl, decode_encode (i := .orVxVy x y) rfl,
    decode_encode (i := .andVxVy x y) rfl, decode_encode (i := .xorVxVy x y) rfl,
    s.complete_setReg x (s.reg y), ?_, ?_, ?_⟩
  · obtain ⟨t, ht, hreg, hrest⟩ := s.complete_setReg x (s.reg x ||| s.reg y)
    exact ⟨t, ht, fun b => by rw [hreg, BitVec.getLsbD_or], hrest⟩
  · obtain ⟨t, ht, hreg, hrest⟩ := s.complete_setReg x (s.reg x &&& s.reg y)
    exact ⟨t, ht, fun b => by rw [hreg, BitVec.getLsbD_and], hrest⟩
  · obtain ⟨t, ht, hreg, hrest⟩ := s.complete_setReg x (s.reg x ^^^ s.reg y)
    exact ⟨t, ht, fun b => by rw [hreg, BitVec.getLsbD_xor], hrest⟩

/-- Settles O24: the wrapped sum is written first and the carry last. -/
theorem addRegistersSetsCarry : Obligations.AddRegistersSetsCarry := fun x y s =>
  ⟨decode_encode (i := .addVxVy x y) rfl,
    s.complete_setRegAndFlag x (toNat_flagByte_carryOut (s.reg x) (s.reg y)) (BitVec.toNat_add (s.reg x) (s.reg y))⟩

/-- Settles O25: SUBN is SUB with the operands swapped; the difference is written first and NOT borrow last. -/
theorem subtractionsSetNoBorrow : Obligations.SubtractionsSetNoBorrow := fun x y s =>
  ⟨decode_encode (i := .subVxVy x y) rfl, decode_encode (i := .subnVxVy x y) rfl,
    s.complete_setRegAndFlag x (toNat_flagByte_noBorrow (s.reg x) (s.reg y)) (toNat_sub_byte (s.reg x) (s.reg y)),
    s.complete_setRegAndFlag x (toNat_flagByte_noBorrow (s.reg y) (s.reg x)) (toNat_sub_byte (s.reg y) (s.reg x))⟩

/-- Settles O26: the shifted V[Y] is written first and the bit shifted out last. -/
theorem shiftsMoveVyAndKeepOutBit : Obligations.ShiftsMoveVyAndKeepOutBit := fun x y s =>
  ⟨decode_encode (i := .shrVxVy x y) rfl, decode_encode (i := .shlVxVy x y) rfl,
    s.complete_setRegAndFlag x (toNat_flagByte_lowBit (s.reg y)) (toNat_ushiftRight_one (s.reg y)),
    s.complete_setRegAndFlag x (toNat_flagByte_highBit (s.reg y)) (toNat_shiftLeft_one (s.reg y))⟩

end Sys2Proof.Machine
end

section
/-! PROOFS. The index-register and memory family (43_index_memory.md): what an access that raises nothing leaves, the
bytes a store puts, the registers a load fills, and the load of what a dump stored. -/

namespace Sys2Proof.Machine

/-! ## Writes of I alone (R161, R162, R163) -/

/-- A handler that writes I and advances. -/
theorem State.complete_setIndex (s : State) {w : Word} {n : Nat} (hw : w.toNat = n) :
    ∃ t, (s.setIndex w).complete .advance = .next t ∧ t.i.toNat = n ∧ t.pc = pcPlus s 2 ∧
      Frame noReg noByte [.index] s t :=
  ⟨_, State.complete_eq .., hw, rfl, Frame.ofIndex ..⟩

theorem toNat_add_zeroExtend (i : Word) (b : Byte) :
    (i + b.zeroExtend 16).toNat = (i.toNat + b.toNat) % 2 ^ 16 := by
  rw [BitVec.toNat_add, BitVec.toNat_setWidth_of_le (by decide)]

/-- Settles O28: each handler writes one value into I and advances. -/
theorem indexRegisterWrites : Obligations.IndexRegisterWrites := fun nnn x s =>
  ⟨decode_encode (i := .ldI nnn) rfl, decode_encode (i := .addIVx x) rfl, decode_encode (i := .ldFVx x) rfl,
    s.complete_setIndex (toNat_zext16 nnn), s.complete_setIndex (toNat_add_zeroExtend s.i (s.reg x)),
    s.complete_setIndex (toNat_glyphAddr s.params (s.reg x))⟩

/-! ## Accesses that raise nothing (R55) -/

theorem not_raisesCause_of_inside {i : Instr} {s : State} {n : Nat} (hn : dataBytes i = some n)
    (inside : s.accessInside n) (c : FaultCode) : ¬ raisesCause i s c := by
  intro hc
  cases c with
  | none | fetchBounds => exact hc
  | stackOverflow =>
    obtain ⟨⟨nnn, rfl⟩, -⟩ := hc
    cases hn
  | stackUnderflow =>
    obtain ⟨rfl, -⟩ := hc
    cases hn
  | memBounds =>
    obtain ⟨m, hm, outside⟩ := hc
    obtain rfl := Option.some.inj (hn.symm.trans hm)
    exact outside inside

/-- An access that raises nothing writes what its instruction may write, and nothing else. -/
theorem frame_of_inside {i : Instr} {s t : State} {n : Nat} (hn : dataBytes i = some n) (inside : s.accessInside n)
    (h : exec i s = .next t) : Frame (writesReg s i) (writesByte s i) (writtenParts i) s t := by
  obtain ⟨u, hu, hframe, -⟩ := exec_frame i s (not_raisesCause_of_inside hn inside)
  obtain rfl := Host.Outcome.next.inj (h.symm.trans hu)
  exact hframe

/-- A store that raises nothing leaves every byte outside the addresses of its access alone. -/
theorem frame_of_store {i : Instr} {s t : State} {n : Nat} (hn : dataBytes i = some n) (inside : s.accessInside n)
    (h : exec i s = .next t) :
    Frame (writesReg s i) (fun a => a ∈ (List.range n).map s.indexed) (writtenParts i) s t := by
  refine (frame_of_inside hn inside h).mono (fun _ => id) fun a ha => ?_
  obtain ⟨-, m, k, hm, hk, rfl⟩ := ha
  obtain rfl := Option.some.inj (hn.symm.trans hm)
  exact List.mem_map_of_mem (List.mem_range.mpr hk)

/-! ## Decimal digits (R164) -/

/-- The digits of a byte as numbers, hundreds first. -/
theorem toNat_bcdDigits (b : Byte) :
    (bcdDigits b).map BitVec.toNat = [b.toNat / 100, b.toNat / 10 % 10, b.toNat % 10] := by
  have := b.isLt
  simp only [bcdDigits, List.map_cons, List.map_nil, BitVec.toNat_ofNat, List.cons.injEq, and_true]
  omega

/-- LD B, Vx puts digit `k` of V[X] at I + k. -/
theorem toNat_readByte_exec_ldBVx {s t : State} {x : RegSel} {k : Nat} (hwf : s.mem.wf = true)
    (inside : s.accessInside 3) (h : exec (.ldBVx x) s = .next t) (hk : k < 3) :
    (t.readByte (s.indexed k)).toNat =
      [(s.reg x).toNat / 100, (s.reg x).toNat / 10 % 10, (s.reg x).toNat % 10][k] := by
  obtain rfl := Host.Outcome.next.inj ((execLdBVx_inside x inside).symm.trans h)
  rw [State.readByte_setPc, State.readByte_writeBytes_indexed (n := 3) hwf rfl (by decide) hk]
  exact (List.getElem_map ..).symm.trans (List.getElem_of_eq (toNat_bcdDigits (s.reg x)) hk)

/-- Settles O29: the two sides of the access of three bytes. -/
theorem bcdStoresThreeDigits : Obligations.BcdStoresThreeDigits := by
  refine fun x s => ⟨decode_encode (i := .ldBVx x) rfl, execLdBVx_outside x, fun inside => ?_⟩
  have hexec := execLdBVx_inside x inside
  refine ⟨_, _, State.dataAddrs_inside inside, rfl, hexec, fun hwf => ?_, rfl,
    frame_of_store (i := .ldBVx x) rfl inside hexec⟩
  have digit {k : Nat} := toNat_readByte_exec_ldBVx (k := k) hwf inside hexec
  exact ⟨digit (by decide), digit (by decide), digit (by decide)⟩

/-! ## Register dump and load (R165, R166, R167) -/

/-- Settles O30: the two sides of the access of X + 1 bytes. -/
theorem registerDumpStoresV0ToVx : Obligations.RegisterDumpStoresV0ToVx := by
  refine fun x s => ⟨decode_encode (i := .ldMemVx x) rfl, execLdMemVx_outside x, fun inside => ?_⟩
  have hexec := execLdMemVx_inside x inside
  refine ⟨_, _, State.dataAddrs_inside inside, by simp, fun k hk => ?_, hexec, fun hwf r hr => ?_,
    toNat_indexPast s.i x, rfl, frame_of_store (i := .ldMemVx x) rfl inside hexec⟩
  · simp [Nat.lt_succ_of_le hk]
  · rw [readByte_exec_ldMemVx hwf inside hexec hr, BitVec.ofNat_toNat, BitVec.setWidth_eq]

/-- LD Vx, [I] puts the byte at I + r into V[r], for every r up to X (R166). -/
theorem reg_exec_ldVxMem {s t : State} {x r : RegSel} (inside : s.accessInside (x.toNat + 1))
    (h : exec (.ldVxMem x) s = .next t) (hr : r.toNat ≤ x.toNat) : t.reg r = s.readByte (s.indexed r.toNat) := by
  obtain rfl := Host.Outcome.next.inj ((execLdVxMem_inside x inside).symm.trans h)
  have hx := x.isLt
  rw [State.reg_setPc, State.reg_setIndex, State.reg_setRegsFrom _ _ _ _ (by simp; omega), dif_pos (by simp; omega)]
  simp

/-- Settles O31: the two sides of the access of X + 1 bytes, which writes no byte. -/
theorem registerLoadFillsV0ToVx : Obligations.RegisterLoadFillsV0ToVx := by
  refine fun x s => ⟨decode_encode (i := .ldVxMem x) rfl, execLdVxMem_outside x, fun inside => ?_⟩
  have hexec := execLdVxMem_inside x inside
  refine ⟨_, hexec, fun _ => reg_exec_ldVxMem inside hexec, toNat_indexPast s.i x, rfl, ?_⟩
  exact (frame_of_inside (i := .ldVxMem x) rfl inside hexec).mono (fun _ => id) fun a => not_writesByte s a rfl

/-- Settles O32: the load reads the addresses the dump stored at, since both start from the same I. -/
theorem dumpThenLoadRestoresRegisters : Obligations.DumpThenLoadRestoresRegisters := by
  intro x s hwf hi
  have inside : s.accessInside (x.toNat + 1) := .inr (.inl hi)
  have hpast : (s.i.toNat + x.toNat + 1) % 2 ^ 16 = s.i.toNat + x.toNat + 1 := by omega
  obtain ⟨-, -, dump⟩ := registerDumpStoresV0ToVx x s
  obtain ⟨-, t, -, -, -, ht, stored, hti, -⟩ := dump inside
  refine ⟨t, ht, hti.trans hpast, fun u hu hbytes => ?_⟩
  have hindexed (k : Nat) : u.indexed k = s.indexed k := by rw [State.indexed, State.indexed, hu]
  obtain ⟨-, -, load⟩ := registerLoadFillsV0ToVx x u
  obtain ⟨v, hv, loaded, hvi, -⟩ := load (.inr (.inl (by rw [hu]; exact hi)))
  refine ⟨v, hv, by rw [hvi, hu, hpast], fun r hr => ?_⟩
  calc v.reg r = u.readByte (u.indexed r.toNat) := loaded r hr
    _ = t.readByte (s.indexed r.toNat) := by rw [hindexed, hbytes]
    _ = s.reg r := stored hwf r hr

end Sys2Proof.Machine
end

section
/-! PROOFS. The display (44_display.md): the bitmap after CLS, the bitmap and the flag after a draw in the words of the
rules, and the draw that undoes itself. -/

namespace Sys2Proof.Machine

/-! ## CLS (R181) -/

/-- Settles O34: the handler writes the blank bitmap and advances. -/
theorem clsClearsDisplay : Obligations.ClsClearsDisplay :=
  ⟨decode_00E0, fun _ => ⟨_, State.complete_eq .., pixelOf_blankDisplay, rfl, rfl,
    Frame.ofDisplay ..⟩⟩

/-! ## The bytes of a sprite (R182) -/

theorem State.length_spriteRows (s : State) (n : Nat) : (s.spriteRows n).length = n := by
  simp [State.spriteRows]

theorem State.getD_spriteRows {s : State} {n r : Nat} (hr : r < n) :
    (s.spriteRows n).getD r 0 = s.readByte (s.indexed r) := by
  simp [State.spriteRows, hr]

/-- Four bits count at most 15 rows, fewer than the 32 lines of the bitmap. -/
theorem State.length_spriteRows_le (s : State) (n : Nybble) : 0 + (s.spriteRows n.toNat).length ≤ 32 := by
  rw [s.length_spriteRows]
  omega

/-- The sprite is a matter of I and the bytes of memory alone. -/
theorem State.spriteRows_congr {s u : State} (hi : u.i = s.i) (hbytes : ∀ a, u.readByte a = s.readByte a) (n : Nat) :
    u.spriteRows n = s.spriteRows n := by
  simp only [State.spriteRows, State.indexed, hi, hbytes]

theorem State.accessInside_congr {s u : State} {n : Nat} (hi : u.i = s.i) (hp : u.params = s.params)
    (h : s.accessInside n) : u.accessInside n := by
  rwa [State.accessInside, hi, hp]

/-! ## The bitmap after a draw (R182, R184) -/

/-- Every pixel is the old one exclusive-or its bit of the sprite, since no two rows share a line. -/
theorem State.pixelOf_drawn (s : State) (x y : RegSel) (n : Nybble) (px : Fin 64) (py : Fin 32) :
    pixelOf (s.drawn x y n).fb px py =
      (s.pixel px py != spriteBit (s.reg x) (s.reg y) (s.spriteRows n.toNat) px py) := by
  rw [State.drawn, pixelOf_drawRowsFrom _ _ _ _ _ _ _ _ (s.length_spriteRows_le n)]
  simp [spriteBit, State.pixel]

/-- A draw of no row draws no pixel (R186). -/
theorem State.drawn_no_row (s : State) (x y : RegSel) : (s.drawn x y 0).fb = s.fb := rfl

/-! ## The flag after a draw (R183) -/

/-- Under LastPixel: the old value of the pixel at bit-offset 7 of the last row AND its bit. -/
theorem State.drawnFlag_lastPixel {s : State} {n : Nybble} {m : Nat} (x y : RegSel)
    (hc : s.params.collision = .lastPixel) (hn : n.toNat = m + 1) :
    s.drawnFlag x y n =
      flagByte (s.pixel (columnOf (s.reg x) 7) (lineOf (s.reg y) m) && (s.readByte (s.indexed m)).getLsbD 0) := by
  have hlen : 0 + (s.spriteRows m).length < 32 := by rw [s.length_spriteRows]; omega
  rw [State.drawnFlag, State.drawn, hc, hn, State.spriteRows_succ, collisionFlag,
    drawRowsFrom_vf_lastPixel _ _ _ _ _ _ hlen, s.length_spriteRows, Nat.zero_add]
  rfl

/-- Under AnyPixel: 1 exactly where some pixel of the sprite was lit and is hit. -/
theorem State.drawnFlag_anyPixel {s : State} (x y : RegSel) (n : Nybble) (hc : s.params.collision = .anyPixel) :
    s.drawnFlag x y n = 1 ↔ ∃ r b, r < n.toNat ∧ b < 8 ∧
      s.pixel (columnOf (s.reg x) b) (lineOf (s.reg y) r) = true ∧
      (s.readByte (s.indexed r)).getLsbD (7 - b) = true := by
  rw [State.drawnFlag, State.drawn, hc, collisionFlag, flagByte_eq_one,
    drawRowsFrom_any _ _ _ _ _ _ (s.length_spriteRows_le n), s.length_spriteRows]
  simp only [Bool.false_eq_true, false_or, Nat.zero_add]
  refine exists_congr fun r => exists_congr fun b => and_congr_right fun hr => ?_
  rw [State.getD_spriteRows hr, State.pixel]

/-! ## The draw -/

/-- Settles O35: the two sides of the access of N bytes, the bitmap and the flag of the compositor. -/
theorem drawCombinesSpriteAndReportsCollision : Obligations.DrawCombinesSpriteAndReportsCollision := by
  refine fun x y n s => ⟨decode_encode (i := .drw x y n) rfl, execDrw_outside x y n, fun inside => ?_⟩
  have hexec := execDrw_drawn x y n inside
  refine ⟨_, hexec, s.pixelOf_drawn x y n, ?_, rfl, rfl, ?_, ?_, ?_, ?_⟩
  · rintro rfl
    exact s.drawn_no_row x y
  · exact (frame_of_inside (i := .drw x y n) rfl inside hexec).mono (fun _ h => h.1) fun a => not_writesByte s a rfl
  all_goals rw [State.reg_setPc, State.reg_setDisplay, State.reg_setReg_same]
  · rintro hc rfl
    exact s.drawnFlag_no_row x y hc
  · intro hc hn
    obtain ⟨m, hm⟩ : ∃ m, n.toNat = m + 1 :=
      Nat.exists_eq_succ_of_ne_zero fun h0 => hn (BitVec.eq_of_toNat_eq h0)
    simp only [State.drawnFlag_lastPixel x y hc hm, toNat_flagByte, Bool.and_eq_true, columnOf, lineOf, hm,
      Nat.add_succ_sub_one, Nat.add_one_sub_one]
  · exact fun hc => ⟨s.drawnFlag_zero_or_one x y n (.inr hc), State.drawnFlag_anyPixel x y n hc⟩

/-- Settles O36: the second draw has the bits of the first, and each combined twice leaves its pixel as it was. -/
theorem drawTwiceRestoresDisplay : Obligations.DrawTwiceRestoresDisplay := by
  intro x y n s inside
  refine ⟨_, execDrw_drawn x y n inside, fun u hfb hi hp hbytes hx hy => ?_⟩
  refine ⟨_, execDrw_drawn x y n (State.accessInside_congr hi hp inside), display_ext fun px py => ?_, rfl⟩
  have first : u.pixel px py = (s.pixel px py != spriteBit (s.reg x) (s.reg y) (s.spriteRows n.toNat) px py) :=
    (congrArg (pixelOf · px py) hfb).trans (s.pixelOf_drawn x y n px py)
  calc pixelOf (u.drawn x y n).fb px py
    _ = (u.pixel px py != spriteBit (s.reg x) (s.reg y) (s.spriteRows n.toNat) px py) := by
      rw [u.pixelOf_drawn, hx, hy, State.spriteRows_congr hi hbytes]
    _ = s.pixel px py := by rw [first, Bool.bne_assoc, bne_self_eq_false, Bool.bne_false]

end Sys2Proof.Machine
end

section
/-! PROOFS. The collaborator-dependent family (45_collaborator.md): the key skips, the reads of a port, the key wait on
either side of its condition, and the timer events. -/

namespace Sys2Proof.Machine

/-! ## The key skips (R201, R202) -/

/-- A handler that skips by `c` answers one PC value or the other and writes nothing else. -/
theorem State.complete_skipIf_ite (s : State) (c : Bool) : ∃ t, s.complete (skipIf c) = .next t ∧
    t.pc = (if c = true then pcPlus s 4 else pcPlus s 2) ∧ Frame noReg noByte [] s t :=
  ⟨_, s.complete_eq _, resolvePc_skipIf s c, Frame.ofPc ..⟩

/-- Settles O37: the bit of `key_down` that each handler reads is that of V[X] mod 16, and SKNP negates it. -/
theorem keySkipsReadLowNybble : Obligations.KeySkipsReadLowNybble := by
  refine fun x s => ⟨decode_encode (i := .skp x) rfl, decode_encode (i := .sknp x) rfl, ?_⟩
  rw [← keyIsDown_lowNybble]
  refine ⟨s.complete_skipIf_ite (keyIsDown s.keyDown (lowNybble (s.reg x))), ?_⟩
  obtain ⟨t, ht, hpc, hframe⟩ := s.complete_skipIf_ite (!keyIsDown s.keyDown (lowNybble (s.reg x)))
  exact ⟨t, ht, hpc.trans (by cases keyIsDown s.keyDown (lowNybble (s.reg x)) <;> rfl), hframe⟩

/-! ## The reads of a port into V[X] (R203, R204) -/

/-- Settles O38: each handler writes one register, and the mask of RND acts bit by bit. -/
theorem randomAndDelayReads : Obligations.RandomAndDelayReads := by
  refine fun x nn s => ⟨decode_encode (i := .rnd x nn) rfl, decode_encode (i := .ldVxDT x) rfl, ?_,
    s.complete_setReg x s.delayIn⟩
  obtain ⟨t, ht, hreg, hrest⟩ := s.complete_setReg x (s.randIn &&& nn)
  exact ⟨t, ht, fun b => by rw [hreg, BitVec.getLsbD_and], hrest⟩

/-! ## The key wait (R205) -/

theorem ne_zero_of_getLsbD {w : Nat} {keys : BitVec w} {k : Nat} (hd : keys.getLsbD k = true) : keys ≠ 0 := by
  rintro rfl
  simp at hd

/-- The search over all 16 keys answers the first that is down. -/
theorem toNat_lowestKey {keys : BitVec 16} {k : Fin 16} (hd : keys.getLsbD k.val = true)
    (hlow : ∀ j : Fin 16, j < k → keys.getLsbD j.val = false) : (lowestKey keys).toNat = k.val := by
  have hsearch : lowestKeyFrom keys 0 16 = k.val :=
    lowestKeyFrom_eq hd (Nat.zero_le _) (by omega) fun l _ hl => hlow ⟨l, hl.trans k.isLt⟩ hl
  rw [lowestKey, hsearch, BitVec.toNat_ofNat]
  omega

/-- Settles O39: with no key down the handler jumps to its own address, else it writes the lowest key and advances. -/
theorem keyWaitRepeatsOrTakesLowestKey : Obligations.KeyWaitRepeatsOrTakesLowestKey := by
  refine fun x s => ⟨decode_encode (i := .ldVxK x) rfl, fun hnone => ?_, fun k hd hlow => ?_⟩
  · exact ⟨_, execLdVxK_noKey x hnone, rfl, Nat.mod_eq_of_lt, Frame.ofPc ..⟩
  · obtain ⟨t, ht, hreg, hrest⟩ := s.complete_setReg x (lowestKey s.keyDown)
    exact ⟨t, (execLdVxK_key x (ne_zero_of_getLsbD hd)).trans ht, by rw [hreg, toNat_lowestKey hd hlow], hrest⟩

/-! ## The timer events (R206, R207) -/

/-- A handler that emits one event and advances. -/
theorem State.complete_emit (s : State) (e : Event) : ∃ t, (s.emit e).complete .advance = .next t ∧
    t.out = s.out ++ [e] ∧ t.pc = pcPlus s 2 ∧ Frame noReg noByte [.output] s t :=
  ⟨_, State.complete_eq .., rfl, rfl, Frame.ofEvent ..⟩

/-- Settles O40: each handler emits V[X] in its own event and advances. -/
theorem timerWritesEmitEvents : Obligations.TimerWritesEmitEvents := fun x s =>
  ⟨decode_encode (i := .ldDTVx x) rfl, decode_encode (i := .ldSTVx x) rfl,
    s.complete_emit (.delayWr (s.reg x)), s.complete_emit (.soundWr (s.reg x))⟩

end Sys2Proof.Machine
end

section
/-! PROOFS. Faults (60_exceptions.md): the causes a step may raise, which exclude one another, the state after a raise,
and what a recorded fault stops. -/

namespace Sys2Proof.Machine

/-! ## The causes of a step (R221, R224) -/

/-- The one cause an instruction may raise; `none` for those that raise nothing (R221). -/
def possibleCause : Instr → FaultCode
  | .call _ => .stackOverflow
  | .ret => .stackUnderflow
  | .drw _ _ _ | .ldBVx _ | .ldMemVx _ | .ldVxMem _ => .memBounds
  | _ => .none

theorem raisesCause_eq_possibleCause {i : Instr} {s : State} {c : FaultCode} (h : raisesCause i s c) :
    c = possibleCause i := by
  cases c with
  | none | fetchBounds => exact h.elim
  | stackOverflow => obtain ⟨⟨nnn, rfl⟩, -⟩ := h; rfl
  | stackUnderflow => obtain ⟨rfl, -⟩ := h; rfl
  | memBounds =>
    obtain ⟨n, hn, -⟩ := h
    cases i <;> cases hn <;> rfl

/-- The causes of R221 for a step of an unfaulted block: a fetch that answers no word, or a handler's own cause. -/
inductive StepRaises (s : State) : FaultCode → Prop
  | fetch : s.fetch = none → StepRaises s .fetchBounds
  | handler (w : Word) (i : Instr) (c : FaultCode) : s.fetch = some w → decode w = .ok i → raisesCause i s c →
      StepRaises s c

theorem stepRaises_iff_of_decode {s : State} {w : Word} {i : Instr} {c : FaultCode} (hf : s.fetch = some w)
    (hd : decode w = .ok i) : StepRaises s c ↔ raisesCause i s c := by
  refine ⟨fun h => ?_, .handler w i c hf hd⟩
  cases h with
  | fetch hnone => simp [hf] at hnone
  | handler w' i' _ hf' hd' hc =>
    obtain rfl := Option.some.inj (hf.symm.trans hf')
    obtain rfl := Except.ok.inj (hd.symm.trans hd')
    exact hc

theorem not_stepRaises_of_noPattern {s : State} {w : Word} {e : DecodeError} (hf : s.fetch = some w)
    (hd : decode w = .error e) (c : FaultCode) : ¬ StepRaises s c := by
  intro h
  cases h with
  | fetch hnone => simp [hf] at hnone
  | handler w' i _ hf' hd' =>
    obtain rfl := Option.some.inj (hf.symm.trans hf')
    simp [hd] at hd'

/-- At most one cause holds (R224). -/
theorem StepRaises.unique {s : State} {c d : FaultCode} (hc : StepRaises s c) (hd : StepRaises s d) : c = d := by
  cases hc with
  | fetch hnone =>
    cases hd with
    | fetch => rfl
    | handler w i _ hf => simp [hnone] at hf
  | handler w i _ hf hdec hc =>
    rw [raisesCause_eq_possibleCause hc,
      raisesCause_eq_possibleCause ((stepRaises_iff_of_decode hf hdec).mp hd)]

/-! ## The cycle by its cause (R222) -/

/-- The cycle of an unfaulted block raises a cause that holds, with OP latched and FAULT written alone, or no cause
holds and FAULT stays NONE. -/
theorem Cycled.raised_or_quiet {s u : State} (h : Cycled s u) (hfault : s.fault = .none) :
    (∃ c, StepRaises s c ∧ u = (s.clearOutput.latchOpcode (s.fetch.getD s.op)).setFault c) ∨
      ((∀ c, ¬ StepRaises s c) ∧ u.fault = .none) := by
  cases h with
  | faulted hne => exact absurd hfault hne
  | noFetch _ hfetch =>
    refine .inl ⟨_, .fetch hfetch, ?_⟩
    rw [hfetch]
    rfl
  | ran w i _ _ hfetch hdec hexec =>
    rcases exec_next hexec with ⟨c, hc, rfl⟩ | ⟨hq, -, hframe, -⟩
    · refine .inl ⟨c, .handler w i c hfetch hdec hc, ?_⟩
      rw [hfetch]
      rfl
    · obtain ⟨-, hkept, -⟩ := hframe.keeps_rest
      exact .inr ⟨fun c hc => hq c ((stepRaises_iff_of_decode hfetch hdec).mp hc), hkept.trans hfault⟩
  | noPattern w e _ hfetch hdec => exact .inr ⟨not_stepRaises_of_noPattern hfetch hdec, hfault⟩

/-- FAULT after the cycle of an unfaulted block is the cause that holds (R221). -/
theorem Cycled.fault_eq_iff {s u : State} (h : Cycled s u) (hfault : s.fault = .none) {c : FaultCode}
    (hc : c ≠ .none) : u.fault = c ↔ StepRaises s c := by
  rcases h.raised_or_quiet hfault with ⟨d, hd, rfl⟩ | ⟨hq, hnone⟩
  · exact ⟨fun heq => heq ▸ hd, hd.unique⟩
  · exact ⟨fun heq => absurd (heq.symm.trans hnone) hc, fun hraise => absurd hraise (hq c)⟩

theorem SameBlock.pc_eq {s t : State} (h : SameBlock s t) : t.pc = s.pc := by
  rw [SameBlock] at h
  rw [h]

theorem SameBlock.i_eq {s t : State} (h : SameBlock s t) : t.i = s.i := by
  rw [SameBlock] at h
  rw [h]

/-- Settles O42: a raise writes FAULT alone on the latched state, whose output is empty. -/
theorem faultEntryIsPrecise : Obligations.FaultEntryIsPrecise := by
  intro s t hfault h hraised
  obtain ⟨u, hstep, hu⟩ := step_cycled s
  obtain ⟨t', hstep', hop⟩ := fetchLatchesOpcode s hfault
  obtain rfl := Host.Outcome.next.inj (hstep.symm.trans h)
  obtain rfl := Host.Outcome.next.inj (hstep'.symm.trans h)
  rcases hu.raised_or_quiet hfault with ⟨c, -, rfl⟩ | ⟨-, hnone⟩
  · exact ⟨rfl, rfl, hop⟩
  · exact absurd hnone hraised

/-! ## Each cause as R221 words it -/

theorem stepRaises_stackOverflow_iff {s : State} : StepRaises s .stackOverflow ↔
    ∃ w nnn, s.fetch = some w ∧ decode w = .ok (.call nnn) ∧ s.sp.val = 16 := by
  constructor
  · rintro (_ | ⟨w, _, _, hf, hd, ⟨nnn, rfl⟩, hsp⟩)
    exact ⟨w, nnn, hf, hd, congrArg Fin.val hsp⟩
  · rintro ⟨w, nnn, hf, hd, hsp⟩
    exact .handler w _ _ hf hd ⟨⟨nnn, rfl⟩, Fin.ext hsp⟩

theorem stepRaises_stackUnderflow_iff {s : State} : StepRaises s .stackUnderflow ↔
    ∃ w, s.fetch = some w ∧ decode w = .ok .ret ∧ s.sp.val = 0 := by
  constructor
  · rintro (_ | ⟨w, _, _, hf, hd, rfl, hsp⟩)
    exact ⟨w, hf, hd, congrArg Fin.val hsp⟩
  · rintro ⟨w, hf, hd, hsp⟩
    exact .handler w _ _ hf hd ⟨rfl, Fin.ext hsp⟩

/-- An access raises where one of its addresses lies past memory under `Fault` (R55). -/
theorem State.not_accessInside_iff_exists {s : State} {n : Nat} :
    ¬ s.accessInside n ↔ ∃ k, k < n ∧ 4096 ≤ s.i.toNat + k ∧ s.params.dataOob = .fault := by
  rw [State.not_accessInside]
  constructor
  · rintro ⟨hn, hi, hp⟩
    exact ⟨n - 1, by omega, by omega, hp⟩
  · rintro ⟨k, hk, hi, hp⟩
    exact ⟨by omega, by omega, hp⟩

theorem stepRaises_memBounds_iff {s : State} : StepRaises s .memBounds ↔
    ∃ w i n k, s.fetch = some w ∧ decode w = .ok i ∧ dataBytes i = some n ∧
      k < n ∧ 4096 ≤ s.i.toNat + k ∧ s.params.dataOob = .fault := by
  constructor
  · rintro (_ | ⟨w, i, _, hf, hd, n, hn, hout⟩)
    obtain ⟨k, hk⟩ := State.not_accessInside_iff_exists.mp hout
    exact ⟨w, i, n, k, hf, hd, hn, hk⟩
  · rintro ⟨w, i, n, k, hf, hd, hn, hk⟩
    exact .handler w i _ hf hd ⟨n, hn, State.not_accessInside_iff_exists.mpr ⟨k, hk⟩⟩

theorem stepRaises_fetchBounds_iff {s : State} : StepRaises s .fetchBounds ↔
    4096 ≤ s.pc + 1 ∧ s.params.fetchOob = .fault := by
  constructor
  · rintro (hnone | ⟨_, _, _, _, _, hc⟩)
    · exact (State.fetch_none hnone).symm
    · exact hc.elim
  · rintro ⟨hpc, hp⟩
    exact .fetch (State.fetch_fault hpc hp)

/-! ## The status codes (R33) -/

theorem faultStatusCode_inj {c d : FaultCode} : faultStatusCode c = faultStatusCode d ↔ c = d := by
  cases c <;> cases d <;> decide

theorem toNat_faultStatusCode_le (c : FaultCode) : (faultStatusCode c).toNat ≤ 4 := by
  cases c <;> decide

/-- The status code after a step is that of a cause exactly where the cause holds. -/
theorem Cycled.faultStatusCode_eq_iff {s u : State} (h : Cycled s u) (hfault : s.fault = .none) {c : FaultCode}
    (hc : c ≠ .none) : faultStatusCode u.passInputs.fault = faultStatusCode c ↔ StepRaises s c :=
  faultStatusCode_inj.trans (h.fault_eq_iff hfault hc)

/-- Settles O43: the code recorded is that of the cause that holds, and a raise keeps all but FAULT and OP. -/
theorem faultCausesAreExact : Obligations.FaultCausesAreExact := by
  intro s hfault
  obtain ⟨u, hstep, hu⟩ := step_cycled s
  refine ⟨_, hstep, (hu.faultStatusCode_eq_iff hfault (c := .stackOverflow) nofun).trans stepRaises_stackOverflow_iff,
    (hu.faultStatusCode_eq_iff hfault (c := .stackUnderflow) nofun).trans stepRaises_stackUnderflow_iff,
    (hu.faultStatusCode_eq_iff hfault (c := .memBounds) nofun).trans stepRaises_memBounds_iff,
    (hu.faultStatusCode_eq_iff hfault (c := .fetchBounds) nofun).trans stepRaises_fetchBounds_iff,
    toNat_faultStatusCode_le _, fun hcode => ?_⟩
  have hraised : u.passInputs.fault ≠ .none := mt faultStatusCode_inj.mpr hcode
  obtain ⟨hsame, -, hop⟩ := faultEntryIsPrecise s _ hfault hstep hraised
  exact ⟨hsame.pc_eq, hsame.i_eq, hop⟩

/-! ## A recorded fault (R223) -/

/-- Settles O11: a faulted step clears the output and passes the ports alone, the loader writes memory alone, and reset
puts FAULT at NONE. -/
theorem faultIsStickyUntilReset : Obligations.FaultIsStickyUntilReset := by
  refine fun s hfault => ⟨⟨_, cycle_faulted hfault, rfl, rfl⟩, fun bytes => State.loadFrom_fault s 512 bytes, rfl, rfl,
    fun hwf b => ?_, fun _ => rfl, rfl⟩
  exact State.readByte_loadFrom (n := 512) (k := 0) (l := [b]) hwf Nat.one_pos (by decide)

end Sys2Proof.Machine
end

section
/-! PROOFS. The end of a run (70_reset_and_hazards.md): a recorded fault and a jump to itself each stay where they are. -/

namespace Sys2Proof.Machine

/-! ## The jump to itself (R124, R248) -/

/-- What a fetch reads: PC, the parameters and memory (R102). -/
theorem State.fetch_congr {s t : State} (hpc : t.pc = s.pc) (hp : t.params = s.params)
    (hbytes : ∀ a, t.readByte a = s.readByte a) : t.fetch = s.fetch := by
  simp only [State.fetch, hpc, hp, hbytes]

/-- The step of a JP stands at its target and keeps memory (R124). -/
theorem step_jp {s : State} {nnn : Addr} (hfault : s.fault = .none) (hfetch : s.fetch = some (0x1#4 ++ nnn)) :
    ∃ t, step s = .next t ∧ t.pc = wrapPc s.params nnn.toNat ∧ t.params = s.params ∧
      ∀ a, t.readByte a = s.readByte a :=
  ⟨_, step_of_exec hfault hfetch (decode_encode (i := .jp nnn) rfl) rfl,
    congrArg (wrapPc s.params) (toNat_zext16 nnn), rfl, fun _ => rfl⟩

/-- A PC of at least 12 bits holds the target whole, so the next fetch is that of the same JP. -/
theorem step_keeps_selfJumpAt {s : State} {halt : Nat} (hwidth : 12 ≤ s.params.pcWidth) (hfault : s.fault = .none)
    (h : s.selfJumpAt halt) :
    ∃ t, step s = .next t ∧ t.selfJumpAt halt ∧ t.pc = s.pc ∧ ∀ a, t.readByte a = s.readByte a := by
  obtain ⟨hpc, nnn, hnnn, hfetch⟩ := h
  obtain ⟨t, hstep, htarget, hparams, hbytes⟩ := step_jp hfault hfetch
  have hhalt : t.pc = halt := htarget.trans ((wrapPc_addr hwidth nnn).trans hnnn)
  have hsame : t.pc = s.pc := hhalt.trans hpc.symm
  have hagain : t.fetch = some (0x1#4 ++ nnn) := (State.fetch_congr hsame hparams hbytes).trans hfetch
  exact ⟨t, hstep, ⟨hhalt, nnn, hnnn, hagain⟩, hsame, hbytes⟩

/-! ## Either end (R223, R248) -/

/-- Settles O52: a faulted step keeps the block, and an unfaulted ended block stands at a jump to itself. -/
theorem endedRunStaysEnded : Obligations.EndedRunStaysEnded := by
  intro s halt hwidth hended
  by_cases hfault : s.fault = .none
  · have hself : s.selfJumpAt halt := hended.resolve_left (not_not_intro hfault)
    obtain ⟨t, hstep, hjump, hkeeps⟩ := step_keeps_selfJumpAt hwidth hfault hself
    exact ⟨t, hstep, .inr hjump, hkeeps⟩
  · exact ⟨_, cycle_faulted hfault, .inl hfault, rfl, fun _ => rfl⟩

end Sys2Proof.Machine
end

section
/-! PROOFS. Reset (10_state.md, 70_reset_and_hazards.md): the value of each element after it. -/

namespace Sys2Proof.Machine

/-! ## The elements that are arrays (R35) -/

@[simp] theorem State.readByte_resetWith (p : Params) (a : Addr) : (State.resetWith p).readByte a = 0x00 := rfl

@[simp] theorem State.reg_resetWith (p : Params) (r : RegSel) : (State.resetWith p).reg r = 0x00 :=
  Vector.getElem_replicate r.isLt

@[simp] theorem State.stack_resetWith (p : Params) (k : Fin 16) : (State.resetWith p).stack[k.val] = 0x0000 :=
  Vector.getElem_replicate k.isLt

@[simp] theorem State.pixel_resetWith (p : Params) (x : Fin 64) (y : Fin 32) :
    (State.resetWith p).pixel x y = false :=
  pixelOf_blankDisplay x y

/-! ## Either reset (R35, R240) -/

/-- The reset state and the state after rst are the table's state, under some parameters, beside whatever the
collaborators present. -/
theorem State.eq_resetWith_of_reset_or_rst {z : State} (h : z = State.reset ∨ ∃ s : State, z = s.rst) :
    ∃ (p : Params) (inputs : List Ports) (tick : Nat), z = { State.resetWith p with inputs, tick } := by
  rcases h with rfl | ⟨s, rfl⟩
  · exact ⟨Params.default, [], 0, rfl⟩
  · exact ⟨s.params, s.inputs, s.tick, rfl⟩

/-- Settles O47: no element of the table is among what the collaborators present, so each has its value under
`State.resetWith`. -/
theorem resetValuesAreThoseOfTheTable : Obligations.ResetValuesAreThoseOfTheTable := by
  intro z hz
  obtain ⟨p, inputs, tick, rfl⟩ := State.eq_resetWith_of_reset_or_rst hz
  exact ⟨State.readByte_resetWith p, State.reg_resetWith p, rfl, rfl, State.stack_resetWith p, rfl,
    State.pixel_resetWith p, rfl, rfl, rfl⟩

end Sys2Proof.Machine
end
